-- ==== Sys2Proof/Word.lean ====
section
/-! DEFINITION. The machine's words: bytes and 16-bit words (spec 00_scope R10). -/

namespace Sys2Proof

/-- A byte, `u8` (R10). -/
abbrev Byte := BitVec 8

/-- A 16-bit word, `u16`: an address, an argument field, an instruction-pointer value (R10, R22, R61). -/
abbrev Word := BitVec 16

end Sys2Proof
end

