-- ==== Sys2Proof/Config.lean ====
section
/-! DEFINITION. Implementation parameters (spec 00_scope R8): the fixed ones as constants, the two OPEN ones as
data that the machine carries. No free value is needed: the spec leaves no result undefined (R94). -/

namespace Sys2Proof.Config

/-- `TAG_BYTES` (R8): the opcode tag is one byte. -/
@[simp] abbrev tagBytes : Nat := 1

/-- `FIELD_BYTES` (R8, D3): every argument field is two bytes. -/
@[simp] abbrev fieldBytes : Nat := 2

/-- `BASE_BYTES` (R8, D2): the operand width of the base families. -/
@[simp] abbrev baseBytes : Nat := 1

/-- `WIDE_BYTES` (R8, D2): the operand width of the `_W` families and SET_VW. -/
@[simp] abbrev wideBytes : Nat := 2

/-- `PTR_BYTES` (R8, D15): the width of the IP and of a pointer held in memory. -/
@[simp] abbrev ptrBytes : Nat := 2

/-- `IP_ADDR` (R8): the address of the instruction-pointer slot. -/
@[simp] abbrev ipAddr : Nat := 0

/-- The OPEN parameters of R8. They are arguments of the model: a machine carries the values it was built with
and no step changes them ("is never resized", R21). -/
structure Params where
  /-- `MEM_SIZE`: how many bytes memory has. -/
  memSize : Nat
  /-- `GEN_SIZE`: the size of the general region, the framebuffer region follows it. -/
  genSize : Nat
deriving DecidableEq, Repr

/-- `FB_BASE`: "immediately following the general region" (R8, R23). -/
def Params.fbBase (p : Params) : Nat := p.genSize

/-- `FB_SIZE = MEM_SIZE - GEN_SIZE` (R8). -/
def Params.fbSize (p : Params) : Nat := p.memSize - p.genSize

/-- The parameters `State.reset` is built with. DESIGN CHOICE (unsafe, logs 1 and 2): both are OPEN in the spec; 0x4000 is
the size of every test vector, 0x2000 is the model's own. Claims that quantify over states hold for every size. -/
def defaultParams : Params := { memSize := 0x4000, genSize := 0x2000 }

end Sys2Proof.Config
end

