-- ==== Sys2Proof/Syntax.lean ====
section
/-! DEFINITION. The instructions: one constructor per row of the decode table (spec 30_encoding R66, R73), and the
four formats (R62, R68). Fields carry the spec's names and order (R16, R61); a field is a 16-bit word, and every value of it
is legal (R70). -/

namespace Sys2Proof

/-- The four argument-record shapes F0 to F3 (R62, R68). -/
inductive Format where
  | f0
  | f1
  | f2
  | f3
deriving DecidableEq, Repr

/-- How many fields a record of this format has (R68). -/
def Format.fieldCount : Format → Nat
  | .f0 => 0
  | .f1 => 1
  | .f2 => 2
  | .f3 => 3

/-- The width of an instruction: tag bytes plus argument bytes (R67). -/
def Format.width (f : Format) : Nat := Config.tagBytes + Config.fieldBytes * f.fieldCount

/-- The four kinds of argument field (R63). -/
inductive FieldKind where
  /-- The operand is `memN[field]`. -/
  | source
  /-- The result is written to `memN[field]`. -/
  | destination
  /-- `mem16[field]` is an address, which is then used. -/
  | pointer
  /-- The field value itself is the operand. -/
  | immediate
deriving DecidableEq, Repr

/-- The closed opcode set (R66, R73). `a`, `b`, `inp` (the spec's `in`) and `src` (the spec's `from`) are source addresses;
`result` and `dst` (the spec's `to`), and the `addr` of SET_V and SET_VW, are destination addresses; `fromP`, `toP` and the `addr` of JUMP hold
pointers; `value`, `bits` and the `addr` of JUMP_V, CJUMP and CJUMP_W are immediates (R63). -/
inductive Instr where
  | add (a b result : Word)
  | sub (a b result : Word)
  | mul (a b result : Word)
  | div (a b result : Word)
  | and (a b result : Word)
  | or (a b result : Word)
  | xor (a b result : Word)
  | addW (a b result : Word)
  | subW (a b result : Word)
  | mulW (a b result : Word)
  | divW (a b result : Word)
  | andW (a b result : Word)
  | orW (a b result : Word)
  | xorW (a b result : Word)
  | not (inp result : Word)
  | lshift (inp bits result : Word)
  | rshift (inp bits result : Word)
  | jumpV (addr : Word)
  | jump (addr : Word)
  | cjump (a b addr : Word)
  | cjumpW (a b addr : Word)
  | cmp (a b result : Word)
  | cmpW (a b result : Word)
  | setV (addr value : Word)
  | setVW (addr value : Word)
  | copy (src dst : Word)
  | copyW (src dst : Word)
  | get (fromP dst : Word)
  | getW (fromP dst : Word)
  | set (src toP : Word)
  | setW (src toP : Word)
  | nop
deriving DecidableEq, Repr

end Sys2Proof
end

