-- ==== Sys2Proof/WellFormed.lean ====
section
/-! DEFINITION. Well-formedness. Every field of every instruction may hold every 16-bit value ("no argument bit pattern
is illegal at decode", spec 30_encoding R70), so the types already make every `Instr` well formed and the checks are on what
the types leave open: the OPEN parameters (00_scope R8) and a memory image (70_reset_and_hazards R181). -/

namespace Sys2Proof

/-- The bounds R8 sets on the OPEN parameters. -/
abbrev Config.Params.Legal (p : Config.Params) : Prop :=
  2 ≤ p.memSize ∧ p.memSize ≤ 65536 ∧ 2 ≤ p.genSize ∧ p.genSize ≤ p.memSize

/-- An image is "a buffer of exactly `MEM_SIZE` bytes" (R181). -/
abbrev ImageFits (p : Config.Params) (image : List Byte) : Prop := image.length = p.memSize

end Sys2Proof
end

