-- ==== Sys2Proof/Decode.lean ====
section
/-! DEFINITION. The decode table (encoding ROM), the decoder, total on any bytes, and the encoder (spec 30_encoding
R58 to R76). The stepper and the disassembler both use `decode` (40_stepper R99). -/

namespace Sys2Proof

/-! ### The table by tag: the decoder's side -/

/-- What a tag selects: the format of its argument record and the instruction its fields make (R66). -/
inductive Shape where
  | f0 (i : Instr)
  | f1 (make : Word → Instr)
  | f2 (make : Word → Word → Instr)
  | f3 (make : Word → Word → Word → Instr)

/-- The format of a table row (R66, R68). -/
def Shape.format : Shape → Format
  | .f0 _ => .f0
  | .f1 _ => .f1
  | .f2 _ => .f2
  | .f3 _ => .f3

/-- The opcode map (R66, D6). A tag it does not list is invalid (R69). -/
def rom (tag : Byte) : Option Shape :=
  match tag.toNat with
  | 0x01 => some (.f3 .add)
  | 0x02 => some (.f3 .sub)
  | 0x03 => some (.f3 .mul)
  | 0x04 => some (.f3 .div)
  | 0x05 => some (.f3 .and)
  | 0x06 => some (.f3 .or)
  | 0x07 => some (.f3 .xor)
  | 0x08 => some (.f3 .addW)
  | 0x09 => some (.f3 .subW)
  | 0x0A => some (.f3 .mulW)
  | 0x0B => some (.f3 .divW)
  | 0x0C => some (.f3 .andW)
  | 0x0D => some (.f3 .orW)
  | 0x0E => some (.f3 .xorW)
  | 0x0F => some (.f2 .not)
  | 0x10 => some (.f3 .lshift)
  | 0x11 => some (.f3 .rshift)
  | 0x12 => some (.f1 .jumpV)
  | 0x13 => some (.f1 .jump)
  | 0x14 => some (.f3 .cjump)
  | 0x15 => some (.f3 .cjumpW)
  | 0x16 => some (.f3 .cmp)
  | 0x17 => some (.f3 .cmpW)
  | 0x18 => some (.f2 .setV)
  | 0x19 => some (.f2 .setVW)
  | 0x1A => some (.f2 .copy)
  | 0x1B => some (.f2 .copyW)
  | 0x1C => some (.f2 .get)
  | 0x1D => some (.f2 .getW)
  | 0x1E => some (.f2 .set)
  | 0x1F => some (.f2 .setW)
  | 0x20 => some (.f0 .nop)
  | _ => none

/-- A field from its two bytes, the byte at the lower address first (R62, R42). -/
def fieldOf (lo hi : Byte) : Word := hi ++ lo

/-- Split an argument record into its fields (R86): the instruction and the bytes after it, or `none` when the bytes end
inside the record. The record starts right after the tag, without padding (R60). -/
def Shape.readRecord : Shape → List Byte → Option (Instr × List Byte)
  | .f0 i, rest => some (i, rest)
  | .f1 make, l₁ :: h₁ :: rest => some (make (fieldOf l₁ h₁), rest)
  | .f2 make, l₁ :: h₁ :: l₂ :: h₂ :: rest => some (make (fieldOf l₁ h₁) (fieldOf l₂ h₂), rest)
  | .f3 make, l₁ :: h₁ :: l₂ :: h₂ :: l₃ :: h₃ :: rest =>
    some (make (fieldOf l₁ h₁) (fieldOf l₂ h₂) (fieldOf l₃ h₃), rest)
  | _, _ => none

/-- The outcomes of decoding a byte string (R75). -/
inductive Decoded where
  /-- A valid opcode with its field values, and the bytes after the instruction. -/
  | instr (i : Instr) (rest : List Byte)
  /-- The tag is not in the closed set (R69). -/
  | invalidOpcode (tag : Byte)
  /-- The tag is valid, of this width, and the bytes end inside the argument record. -/
  | truncated (tag : Byte) (width : Nat)
  /-- There is no tag byte. -/
  | empty
deriving DecidableEq, Repr

/-- The decoder: the tag alone selects the row (R59, R71), then exactly the record's bytes are split. -/
def decode : List Byte → Decoded
  | [] => .empty
  | tag :: bytes =>
    match rom tag with
    | none => .invalidOpcode tag
    | some shape =>
      match shape.readRecord bytes with
      | some (i, rest) => .instr i rest
      | none => .truncated tag shape.format.width

/-! ### The table by instruction: the encoder's and the disassembler's side -/

/-- An argument field of an instruction: the spec's name of it, its kind (R63) and its value. -/
structure Field where
  name : String
  kind : FieldKind
  value : Word
deriving DecidableEq, Repr

/-- One row of the decode table (R66) for an instruction: tag, mnemonic, format, operand width `N` in bytes (0 where R66 has
none), and the fields in record order (R61). -/
structure Row where
  tag : Byte
  mnemonic : String
  format : Format
  operandBytes : Nat
  fields : List Field
deriving DecidableEq, Repr

/-- The row of an instruction, spelled as R66 spells it. -/
def Instr.row : Instr → Row
  | .add a b result => ⟨0x01, "ADD", .f3, 1, [⟨"a", .source, a⟩, ⟨"b", .source, b⟩, ⟨"result", .destination, result⟩]⟩
  | .sub a b result => ⟨0x02, "SUB", .f3, 1, [⟨"a", .source, a⟩, ⟨"b", .source, b⟩, ⟨"result", .destination, result⟩]⟩
  | .mul a b result => ⟨0x03, "MUL", .f3, 1, [⟨"a", .source, a⟩, ⟨"b", .source, b⟩, ⟨"result", .destination, result⟩]⟩
  | .div a b result => ⟨0x04, "DIV", .f3, 1, [⟨"a", .source, a⟩, ⟨"b", .source, b⟩, ⟨"result", .destination, result⟩]⟩
  | .and a b result => ⟨0x05, "AND", .f3, 1, [⟨"a", .source, a⟩, ⟨"b", .source, b⟩, ⟨"result", .destination, result⟩]⟩
  | .or a b result => ⟨0x06, "OR", .f3, 1, [⟨"a", .source, a⟩, ⟨"b", .source, b⟩, ⟨"result", .destination, result⟩]⟩
  | .xor a b result => ⟨0x07, "XOR", .f3, 1, [⟨"a", .source, a⟩, ⟨"b", .source, b⟩, ⟨"result", .destination, result⟩]⟩
  | .addW a b result => ⟨0x08, "ADD_W", .f3, 2, [⟨"a", .source, a⟩, ⟨"b", .source, b⟩, ⟨"result", .destination, result⟩]⟩
  | .subW a b result => ⟨0x09, "SUB_W", .f3, 2, [⟨"a", .source, a⟩, ⟨"b", .source, b⟩, ⟨"result", .destination, result⟩]⟩
  | .mulW a b result => ⟨0x0A, "MUL_W", .f3, 2, [⟨"a", .source, a⟩, ⟨"b", .source, b⟩, ⟨"result", .destination, result⟩]⟩
  | .divW a b result => ⟨0x0B, "DIV_W", .f3, 2, [⟨"a", .source, a⟩, ⟨"b", .source, b⟩, ⟨"result", .destination, result⟩]⟩
  | .andW a b result => ⟨0x0C, "AND_W", .f3, 2, [⟨"a", .source, a⟩, ⟨"b", .source, b⟩, ⟨"result", .destination, result⟩]⟩
  | .orW a b result => ⟨0x0D, "OR_W", .f3, 2, [⟨"a", .source, a⟩, ⟨"b", .source, b⟩, ⟨"result", .destination, result⟩]⟩
  | .xorW a b result => ⟨0x0E, "XOR_W", .f3, 2, [⟨"a", .source, a⟩, ⟨"b", .source, b⟩, ⟨"result", .destination, result⟩]⟩
  | .not inp result => ⟨0x0F, "NOT", .f2, 1, [⟨"in", .source, inp⟩, ⟨"result", .destination, result⟩]⟩
  | .lshift inp bits result => ⟨0x10, "LSHIFT", .f3, 1, [⟨"in", .source, inp⟩, ⟨"bits", .immediate, bits⟩, ⟨"result", .destination, result⟩]⟩
  | .rshift inp bits result => ⟨0x11, "RSHIFT", .f3, 1, [⟨"in", .source, inp⟩, ⟨"bits", .immediate, bits⟩, ⟨"result", .destination, result⟩]⟩
  | .jumpV addr => ⟨0x12, "JUMP_V", .f1, 0, [⟨"addr", .immediate, addr⟩]⟩
  | .jump addr => ⟨0x13, "JUMP", .f1, 0, [⟨"addr", .pointer, addr⟩]⟩
  | .cjump a b addr => ⟨0x14, "CJUMP", .f3, 1, [⟨"a", .source, a⟩, ⟨"b", .source, b⟩, ⟨"addr", .immediate, addr⟩]⟩
  | .cjumpW a b addr => ⟨0x15, "CJUMP_W", .f3, 2, [⟨"a", .source, a⟩, ⟨"b", .source, b⟩, ⟨"addr", .immediate, addr⟩]⟩
  | .cmp a b result => ⟨0x16, "CMP", .f3, 1, [⟨"a", .source, a⟩, ⟨"b", .source, b⟩, ⟨"result", .destination, result⟩]⟩
  | .cmpW a b result => ⟨0x17, "CMP_W", .f3, 2, [⟨"a", .source, a⟩, ⟨"b", .source, b⟩, ⟨"result", .destination, result⟩]⟩
  | .setV addr value => ⟨0x18, "SET_V", .f2, 1, [⟨"addr", .destination, addr⟩, ⟨"value", .immediate, value⟩]⟩
  | .setVW addr value => ⟨0x19, "SET_VW", .f2, 2, [⟨"addr", .destination, addr⟩, ⟨"value", .immediate, value⟩]⟩
  | .copy src dst => ⟨0x1A, "COPY", .f2, 1, [⟨"from", .source, src⟩, ⟨"to", .destination, dst⟩]⟩
  | .copyW src dst => ⟨0x1B, "COPY_W", .f2, 2, [⟨"from", .source, src⟩, ⟨"to", .destination, dst⟩]⟩
  | .get fromP dst => ⟨0x1C, "GET", .f2, 1, [⟨"from_p", .pointer, fromP⟩, ⟨"to", .destination, dst⟩]⟩
  | .getW fromP dst => ⟨0x1D, "GET_W", .f2, 2, [⟨"from_p", .pointer, fromP⟩, ⟨"to", .destination, dst⟩]⟩
  | .set src toP => ⟨0x1E, "SET", .f2, 1, [⟨"from", .source, src⟩, ⟨"to_p", .pointer, toP⟩]⟩
  | .setW src toP => ⟨0x1F, "SET_W", .f2, 2, [⟨"from", .source, src⟩, ⟨"to_p", .pointer, toP⟩]⟩
  | .nop => ⟨0x20, "NOP", .f0, 0, []⟩

/-- `WIDTH` of an instruction: what it occupies and what the IP advances by (R67, R74). -/
def Instr.width (i : Instr) : Nat := i.row.format.width

/-- The low byte of a word, stored first (R42). -/
def loByte (w : Word) : Byte := w.extractLsb' 0 8

/-- The high byte of a word, stored second (R42). -/
def hiByte (w : Word) : Byte := w.extractLsb' 8 8

/-- The encoder: the tag, then each field little-endian in record order (R58, R60, R61, R62). -/
def encode (i : Instr) : List Byte :=
  i.row.tag :: i.row.fields.flatMap fun f => [loByte f.value, hiByte f.value]

/-! ### Pseudo-instructions -/

/-- `SPIN` at address `here` expands to a JUMP_V to itself (R78). -/
def spin (here : Word) : Instr := .jumpV here

/-- `FAULT` expands to the single byte 0x00, an invalid tag (R78). -/
def faultByte : Byte := 0x00

/-! ### The host's view of a table word -/

/-- The longest instruction, in bytes: format F3 (R67). -/
def longestWidth : Nat := Format.f3.width

/-- The bytes of a table word: byte `k` is bits `8k+7..8k` of `w`, bits at and above `nbits` are 0, up to the longest
instruction. -/
def tableBytes (nbits w : Nat) : List Byte :=
  (List.range longestWidth).map fun k => BitVec.ofNat 8 (w % 2 ^ nbits / 256 ^ k)

/-- The instruction the decoder reads from a table word. -/
def decodeTableWord (nbits w : Nat) : Option Instr :=
  match decode (tableBytes nbits w) with
  | .instr i _ => some i
  | _ => none

end Sys2Proof
end

