-- ==== Sys2Proof/Machine/State.lean ====
section
/-! DEFINITION. The state of the core: memory (with the IP in bytes 0 and 1), the run state and the halt record (spec
10_state R37), the reasons a step can stop, and the state after reset. -/

namespace Sys2Proof.Machine

/-- Memory: an array of `MEM_SIZE` bytes (R21), held as the list of its bytes that are not 0x00, each with its address. An
address the list does not name holds 0x00, the reset contents (R34). -/
structure Memory where
  /-- The OPEN parameters this memory was built with (R8). Nothing changes them (R21). -/
  params : Config.Params
  /-- The bytes that are not 0x00. -/
  cells : List Host.Cell
deriving DecidableEq, Repr

/-- The canonical form: addresses strictly rising, no entry equal to what an unlisted address reads as, and no byte outside
`0 .. MEM_SIZE-1` (R22). Memories in this form are equal when their parameters and bytes are. -/
abbrev Memory.wf (m : Memory) : Prop :=
  m.cells.Pairwise (fun c d => c.1 < d.1) ∧ ∀ c ∈ m.cells, c.2 ≠ 0 ∧ c.1 < m.params.memSize

/-- The stepper's run state (R26). -/
inductive RunState where
  | ready
  | halted
deriving DecidableEq, Repr

/-- The four failures (R14, R161), with the information each records (R28). -/
inductive Failure where
  /-- The access of `n` bytes at `addr` leaves memory (R164). The address is an integer: it can be 0x10000 (R28). -/
  | outOfBounds (addr n : Nat)
  /-- The tag read is not in the closed set (R165). -/
  | invalidOpcode (tag : Byte)
  /-- DIV or DIV_W with a zero divisor (R166). -/
  | divisionByZero
  /-- LSHIFT or RSHIFT with `bits > 8` (R167). -/
  | invalidShiftAmount (bits : Word)
deriving DecidableEq, Repr

/-- The halt record (R28): `none` while Ready, else the failure and the address of the failing instruction. -/
inductive HaltRecord where
  | none
  | halted (cause : Failure) (faultIp : Word)
deriving DecidableEq, Repr

/-- The whole state of the core (R37). There are no registers, flags or modes (R20, R29, R30, R173), and no hidden state (R31);
the IP is memory bytes 0 and 1 (R24). -/
structure State where
  mem : Memory
  run : RunState
  halt : HaltRecord
deriving DecidableEq, Repr

/-- Why a step stops without an answer. The spec's own failures are no constructors here: a failing step takes a next state, the
Halted machine (R89, R163). -/
inductive Fault where
  /-- Raised by `step` on a Ready state whose parameters break the bounds of R8, so that it is no machine of the spec. Safe:
  no state with legal parameters reaches it (log 3). -/
  | illegalParams
deriving DecidableEq, Repr

/-- Why an instruction has no meaning. -/
inductive Refusal where
  /-- Raised by an arm of `exec` whose instruction has no meaning yet. Safe; no arm raises it. -/
  | notModelled (mnemonic : String)
deriving DecidableEq, Repr

/-- Machine construction: "Memory is allocated once at machine construction (zero-initialized)" (R34, R181), Ready (R35), no
halt record (R36). -/
def State.construct (p : Config.Params) : State :=
  { mem := { params := p, cells := [] }, run := .ready, halt := .none }

/-- The machine right after reset, with an all-zero image (R34 to R36). The sizes are OPEN in the spec (logs 1 and 2). -/
def State.reset : State := State.construct Config.defaultParams

end Sys2Proof.Machine
end

