-- ==== Sys2Proof/Machine/Ops.lean ====
section
/-! DEFINITION. The operations over memory, the instruction pointer, halt entry and the commit of a step (spec 20_memory
R39 to R43, 00_scope R12 to R15, 40_stepper R87 to R89, 60_exceptions R163). -/

namespace Sys2Proof.Machine

/-! ### Bytes of memory -/

/-- What an unlisted address reads as: 0x00, the reset contents of every byte (R34). -/
def blankByte : Byte := 0x00

/-- The byte a cell list gives an address. -/
def cellAt (addr : Nat) : List Host.Cell → Byte
  | [] => blankByte
  | c :: rest => if c.1 = addr then c.2 else cellAt addr rest

/-- Insert a cell before the first cell of a higher address. -/
def insertCell (cell : Host.Cell) : List Host.Cell → List Host.Cell
  | [] => [cell]
  | c :: rest => if cell.1 < c.1 then cell :: c :: rest else c :: insertCell cell rest

/-- Replace the byte at an address, keeping the canonical form: a blank byte is not listed. -/
def putCell (addr : Nat) (b : Byte) (cells : List Host.Cell) : List Host.Cell :=
  let others := cells.filter fun c => c.1 ≠ addr
  if b = blankByte then others else insertCell (addr, b) others

/-- `mem[addr]`, without a bounds check. -/
def Memory.byteAt (m : Memory) (addr : Nat) : Byte := cellAt addr m.cells

/-- `mem[addr] <- b`, without a bounds check. -/
def Memory.put (m : Memory) (addr : Nat) (b : Byte) : Memory := { m with cells := putCell addr b m.cells }

/-- `MEM_SIZE` of this memory (R21). -/
abbrev Memory.size (m : Memory) : Nat := m.params.memSize

/-- The address map (R23, R49). The core treats every present region alike. -/
inductive Region where
  | ipSlot
  | general
  | framebuffer
  /-- Not present: every access that touches it fails with OutOfBounds. -/
  | absent
deriving DecidableEq, Repr

/-- The region of an address (R49). -/
def regionOf (p : Config.Params) (addr : Nat) : Region :=
  if addr < 2 then .ipSlot
  else if addr < p.fbBase then .general
  else if addr < p.fbBase + p.fbSize then .framebuffer
  else .absent

/-! ### Byte strings and their little-endian values -/

/-- The `n` bytes of a value, lowest first (R40, R42). -/
def leBytes : Nat → Nat → List Byte
  | 0, _ => []
  | n + 1, v => BitVec.ofNat 8 v :: leBytes n (v / 256)

/-- The value of a byte string, lowest byte first (R39, R42). -/
def leValue : List Byte → Nat
  | [] => 0
  | b :: rest => b.toNat + 256 * leValue rest

/-- The `n` bytes at `addr .. addr+n-1`, in address order: a view (R41), without its bounds check. -/
def Memory.bytes (m : Memory) (addr : Nat) : Nat → List Byte
  | 0 => []
  | n + 1 => m.byteAt addr :: m.bytes (addr + 1) n

/-- Store a byte string at `addr`, in address order, without a bounds check. -/
def Memory.storeBytes (m : Memory) (addr : Nat) : List Byte → Memory
  | [] => m
  | b :: rest => (m.put addr b).storeBytes (addr + 1) rest

/-- The value `MemRead` assembles: `sum over i of mem[addr + i] * 256^i` (R39). -/
def Memory.valueAt (m : Memory) (addr n : Nat) : Nat := leValue (m.bytes addr n)

/-- What `MemWrite` stores: byte `i` of the value at `addr + i` (R40). -/
def Memory.storeValue (m : Memory) (addr n v : Nat) : Memory := m.storeBytes addr (leBytes n v)

/-! ### The access primitives -/

/-- `CheckBounds(addr, n)` (R12): the sum is an integer, it does not wrap (R10, D26). -/
def checkBounds (m : Memory) (addr n : Nat) : Except Failure Unit :=
  if addr + n > m.size then .error (.outOfBounds addr n) else .ok ()

/-- `MemRead(addr, n)` (R39). -/
def memRead (m : Memory) (addr n : Nat) : Except Failure Nat :=
  if addr + n > m.size then .error (.outOfBounds addr n) else .ok (m.valueAt addr n)

/-- `MemWrite(addr, n, v)` (R40). A failing write writes no byte. -/
def memWrite (m : Memory) (addr n v : Nat) : Except Failure Memory :=
  if addr + n > m.size then .error (.outOfBounds addr n) else .ok (m.storeValue addr n v)

/-! ### The instruction pointer -/

/-- `IP`, the 16-bit little-endian value of bytes 0 and 1 (R13, R24). -/
def Memory.ip (m : Memory) : Word := BitVec.ofNat 16 (m.valueAt Config.ipAddr Config.ptrBytes)

/-- `IP <- v` (R13). It cannot fail: the slot is always in bounds (R120, R164). -/
def Memory.setIp (m : Memory) (v : Word) : Memory := m.storeValue Config.ipAddr Config.ptrBytes v.toNat

/-- Phase 4: the IP advances past the instruction, modulo 2^16, before the effect (R87, D18). -/
def Memory.advance (m : Memory) (f : Format) : Memory := m.setIp (m.ip + BitVec.ofNat 16 f.width)

/-! ### Halt entry and commit -/

/-- Halt entry (R163): memory stays as it was before the step, the run state becomes Halted, and the record takes the failure
and the address of the failing instruction. There is no return from it but a reset (R169). -/
def State.takeFailure (s : State) (e : Failure) : State :=
  { mem := s.mem, run := .halted, halt := .halted e s.mem.ip }

/-- The end of a successful step (R89). -/
def State.committed (m : Memory) : State := { mem := m, run := .ready, halt := .none }

/-- Phases 4 and 5 and the commit (R87 to R89): advance the IP by the width of the format, run the effect on that working copy,
then install what it made, or install nothing and halt. The run state of `s` plays no part: the stepper asks only when it is
Ready (log 8). -/
def State.runEffect (s : State) (f : Format) (effect : Memory → Except Failure Memory) :
    Host.Outcome State Fault Refusal :=
  match effect (s.mem.advance f) with
  | .ok m => .next (State.committed m)
  | .error e => .next (s.takeFailure e)

end Sys2Proof.Machine
end

