-- ==== Sys2Proof/Machine/Operands.lean ====
section
/-! DEFINITION. The operand forms (spec 30_encoding R63, R65) and the arithmetic of the operations on operand values (41
R100 to R114, 42 R116 to R119). Operand values are unsigned integers (R11, D10); `n` is the operand width in bytes. -/

namespace Sys2Proof.Machine

/-! ### Operand forms (R65) -/

/-- Direct source operand: `memN[field]` (R63). -/
def readDirect (m : Memory) (n : Nat) (field : Word) : Except Failure Nat := memRead m field.toNat n

/-- The pointer a pointer-holding field names: `mem16[field]`, two bytes whatever the operand width (R63, D15). -/
def readPointer (m : Memory) (field : Word) : Except Failure Word := do
  let p ← memRead m field.toNat Config.ptrBytes
  return BitVec.ofNat 16 p

/-- The bounds check of a direct destination, made before the value is computed (R95, R100). -/
def checkDirect (m : Memory) (n : Nat) (field : Word) : Except Failure Unit := checkBounds m field.toNat n

/-- Direct destination: the result goes to `memN[field]` (R63). -/
def writeDirect (m : Memory) (n : Nat) (field : Word) (v : Nat) : Except Failure Memory := memWrite m field.toNat n v

/-! ### Arithmetic -/

/-- `z mod 2^W` with `W = 8 * n`, the non-negative remainder (R10, R16). -/
def narrow (n : Nat) (z : Int) : Nat := (z % (2 ^ (8 * n) : Nat)).toNat

/-- `x + y` (R101, R108). -/
def opAdd (x y : Nat) : Int := x + y

/-- `x - y`, exact: it may be negative before narrowing (R102, R109). -/
def opSub (x y : Nat) : Int := x - y

/-- `x * y` (R103, R110). -/
def opMul (x y : Nat) : Int := x * y

/-- `floor(x / y)`, unsigned (R104, R111). -/
def opDiv (x y : Nat) : Int := (x / y : Nat)

/-- `x & y` (R105, R112). -/
def opAnd (x y : Nat) : Int := (x &&& y : Nat)

/-- `x | y` (R106, R113). -/
def opOr (x y : Nat) : Int := (x ||| y : Nat)

/-- `x ^ y` (R107, R114). -/
def opXor (x y : Nat) : Int := (x ^^^ y : Nat)

/-- `(~x) mod 2^W`, which "equals 0xFF - x" for a byte (R116). -/
def opNot (n x : Nat) : Nat := 2 ^ (8 * n) - 1 - x

/-- `(x << bits) mod 2^W`: zeros shift in, bits past the top are lost (R118). -/
def opShl (n x bits : Nat) : Nat := (x <<< bits) % 2 ^ (8 * n)

/-- `x >> bits`: logical (R119). -/
def opShr (x bits : Nat) : Nat := x >>> bits

/-- The shift amount check: `bits` is the immediate itself, and a shift by exactly the operand width is valid (R117, D11). -/
def checkShift (n : Nat) (bits : Word) : Except Failure Unit :=
  if bits.toNat > 8 * n then .error (.invalidShiftAmount bits) else .ok ()

/-- The divisor check of DIV and DIV_W (R100). -/
def checkDivisor (y : Nat) : Except Failure Unit := if y = 0 then .error .divisionByZero else .ok ()

end Sys2Proof.Machine
end

