-- ==== Sys2Proof/Machine/Flags.lean ====
section
/-! DEFINITION. The core has no flags and no condition codes (spec 10_state R29). What other machines keep in flags is a
comparison result written to memory (44_comparison R127) and a condition a jump computes itself (43_control_transfer R122). -/

namespace Sys2Proof.Machine

/-- The three-valued comparison result at operand width `n`: all ones, 0 or 1, unsigned (R127). -/
def compareCode (n x y : Nat) : Nat :=
  if x < y then 2 ^ (8 * n) - 1 else if x = y then 0 else 1

/-- The condition of CJUMP and CJUMP_W: the two operand values are equal (R122, R123, D13). -/
def jumpTaken (x y : Nat) : Bool := x = y

end Sys2Proof.Machine
end

