-- ==== Sys2Proof/Machine/Binary.lean ====
section
/-! DEFINITION. The binary operations (spec 41_binary_ops R100 to R115). -/

namespace Sys2Proof.Machine

/-- `BinOp(N, f)` (R100): both operands are read, the destination is checked, then the exact result is narrowed and written. -/
def binOp (n : Nat) (f : Nat → Nat → Int) (a b result : Word) (m : Memory) : Except Failure Memory := do
  let x ← readDirect m n a
  let y ← readDirect m n b
  checkDirect m n result
  writeDirect m n result (narrow n (f x y))

/-- `BinOp` of DIV and DIV_W: the divisor check comes after the three bounds checks (R100, R104, R111). -/
def divOp (n : Nat) (a b result : Word) (m : Memory) : Except Failure Memory := do
  let x ← readDirect m n a
  let y ← readDirect m n b
  checkDirect m n result
  checkDivisor y
  writeDirect m n result (narrow n (opDiv x y))

/-- ADD (R101). -/
def execAdd (a b result : Word) (s : State) : Host.Outcome State Fault Refusal :=
  s.runEffect .f3 (binOp Config.baseBytes opAdd a b result)

/-- SUB (R102). -/
def execSub (a b result : Word) (s : State) : Host.Outcome State Fault Refusal :=
  s.runEffect .f3 (binOp Config.baseBytes opSub a b result)

/-- MUL (R103). -/
def execMul (a b result : Word) (s : State) : Host.Outcome State Fault Refusal :=
  s.runEffect .f3 (binOp Config.baseBytes opMul a b result)

/-- DIV (R104). -/
def execDiv (a b result : Word) (s : State) : Host.Outcome State Fault Refusal :=
  s.runEffect .f3 (divOp Config.baseBytes a b result)

/-- AND (R105). -/
def execAnd (a b result : Word) (s : State) : Host.Outcome State Fault Refusal :=
  s.runEffect .f3 (binOp Config.baseBytes opAnd a b result)

/-- OR (R106). -/
def execOr (a b result : Word) (s : State) : Host.Outcome State Fault Refusal :=
  s.runEffect .f3 (binOp Config.baseBytes opOr a b result)

/-- XOR (R107). -/
def execXor (a b result : Word) (s : State) : Host.Outcome State Fault Refusal :=
  s.runEffect .f3 (binOp Config.baseBytes opXor a b result)

/-- ADD_W (R108). -/
def execAddW (a b result : Word) (s : State) : Host.Outcome State Fault Refusal :=
  s.runEffect .f3 (binOp Config.wideBytes opAdd a b result)

/-- SUB_W (R109). -/
def execSubW (a b result : Word) (s : State) : Host.Outcome State Fault Refusal :=
  s.runEffect .f3 (binOp Config.wideBytes opSub a b result)

/-- MUL_W (R110). -/
def execMulW (a b result : Word) (s : State) : Host.Outcome State Fault Refusal :=
  s.runEffect .f3 (binOp Config.wideBytes opMul a b result)

/-- DIV_W (R111). -/
def execDivW (a b result : Word) (s : State) : Host.Outcome State Fault Refusal :=
  s.runEffect .f3 (divOp Config.wideBytes a b result)

/-- AND_W (R112). -/
def execAndW (a b result : Word) (s : State) : Host.Outcome State Fault Refusal :=
  s.runEffect .f3 (binOp Config.wideBytes opAnd a b result)

/-- OR_W (R113). -/
def execOrW (a b result : Word) (s : State) : Host.Outcome State Fault Refusal :=
  s.runEffect .f3 (binOp Config.wideBytes opOr a b result)

/-- XOR_W (R114). -/
def execXorW (a b result : Word) (s : State) : Host.Outcome State Fault Refusal :=
  s.runEffect .f3 (binOp Config.wideBytes opXor a b result)

end Sys2Proof.Machine
end

