-- ==== Sys2Proof/Machine/Compare.lean ====
section
/-! DEFINITION. Comparison (spec 44_comparison R127 to R129). -/

namespace Sys2Proof.Machine

/-- The common effect of CMP and CMP_W (R128, R129). -/
def compareOp (n : Nat) (a b result : Word) (m : Memory) : Except Failure Memory := do
  let x ← readDirect m n a
  let y ← readDirect m n b
  checkDirect m n result
  writeDirect m n result (compareCode n x y)

/-- CMP (R128). -/
def execCmp (a b result : Word) (s : State) : Host.Outcome State Fault Refusal :=
  s.runEffect .f3 (compareOp Config.baseBytes a b result)

/-- CMP_W (R129). -/
def execCmpW (a b result : Word) (s : State) : Host.Outcome State Fault Refusal :=
  s.runEffect .f3 (compareOp Config.wideBytes a b result)

end Sys2Proof.Machine
end

