-- ==== Sys2Proof/Machine/Control.lean ====
section
/-! DEFINITION. Control transfer (spec 43_control_transfer R120 to R126). The jump is the effect's last action and overrides the
default advance (R87); there are no delay slots (R126). -/

namespace Sys2Proof.Machine

/-- The effect of JUMP_V (R120): the target is the field itself. It is not checked (R125). -/
def jumpToOp (addr : Word) (m : Memory) : Except Failure Memory := .ok (m.setIp addr)

/-- JUMP_V (R120). -/
def execJumpV (addr : Word) (s : State) : Host.Outcome State Fault Refusal :=
  s.runEffect .f1 (jumpToOp addr)

/-- The effect of JUMP (R121): the target is the pointer held at `addr`. -/
def jumpThroughOp (addr : Word) (m : Memory) : Except Failure Memory := do
  let t ← readPointer m addr
  return m.setIp t

/-- JUMP (R121). -/
def execJump (addr : Word) (s : State) : Host.Outcome State Fault Refusal :=
  s.runEffect .f1 (jumpThroughOp addr)

/-- The common effect of CJUMP and CJUMP_W (R122, R123): both operands are read whether or not the jump is taken. -/
def cjumpOp (n : Nat) (a b addr : Word) (m : Memory) : Except Failure Memory := do
  let x ← readDirect m n a
  let y ← readDirect m n b
  return if jumpTaken x y then m.setIp addr else m

/-- CJUMP (R122). -/
def execCjump (a b addr : Word) (s : State) : Host.Outcome State Fault Refusal :=
  s.runEffect .f3 (cjumpOp Config.baseBytes a b addr)

/-- CJUMP_W (R123). -/
def execCjumpW (a b addr : Word) (s : State) : Host.Outcome State Fault Refusal :=
  s.runEffect .f3 (cjumpOp Config.wideBytes a b addr)

end Sys2Proof.Machine
end

