-- ==== Sys2Proof/Machine/Move.lean ====
section
/-! DEFINITION. Immediate store, copy, and indirect load and store (spec 45_data_movement R130 to R138). The destination check
is the failing write itself, which writes nothing (R138). -/

namespace Sys2Proof.Machine

/-- The common effect of SET_V and SET_VW: store an immediate (R130, R131). -/
def storeOp (n : Nat) (addr : Word) (v : Nat) (m : Memory) : Except Failure Memory := writeDirect m n addr v

/-- SET_V (R130): stores `value[7:0]`, bits 15..8 are ignored (D16). -/
def execSetV (addr value : Word) (s : State) : Host.Outcome State Fault Refusal :=
  s.runEffect .f2 (storeOp Config.baseBytes addr (loByte value).toNat)

/-- SET_VW (R131). -/
def execSetVW (addr value : Word) (s : State) : Host.Outcome State Fault Refusal :=
  s.runEffect .f2 (storeOp Config.wideBytes addr value.toNat)

/-- The common effect of COPY and COPY_W (R132, R133): the whole value is read before it is written. -/
def copyOp (n : Nat) (src dst : Word) (m : Memory) : Except Failure Memory := do
  let v ← readDirect m n src
  writeDirect m n dst v

/-- COPY (R132). -/
def execCopy (src dst : Word) (s : State) : Host.Outcome State Fault Refusal :=
  s.runEffect .f2 (copyOp Config.baseBytes src dst)

/-- COPY_W (R133). -/
def execCopyW (src dst : Word) (s : State) : Host.Outcome State Fault Refusal :=
  s.runEffect .f2 (copyOp Config.wideBytes src dst)

/-- The common effect of GET and GET_W (R134, R135): load through the pointer at `fromP`. -/
def getOp (n : Nat) (fromP dst : Word) (m : Memory) : Except Failure Memory := do
  let p ← readPointer m fromP
  let v ← readDirect m n p
  writeDirect m n dst v

/-- GET (R134). -/
def execGet (fromP dst : Word) (s : State) : Host.Outcome State Fault Refusal :=
  s.runEffect .f2 (getOp Config.baseBytes fromP dst)

/-- GET_W (R135). -/
def execGetW (fromP dst : Word) (s : State) : Host.Outcome State Fault Refusal :=
  s.runEffect .f2 (getOp Config.wideBytes fromP dst)

/-- The common effect of SET and SET_W (R136, R137): store through the pointer at `toP`. -/
def setOp (n : Nat) (src toP : Word) (m : Memory) : Except Failure Memory := do
  let v ← readDirect m n src
  let p ← readPointer m toP
  writeDirect m n p v

/-- SET (R136). -/
def execSet (src toP : Word) (s : State) : Host.Outcome State Fault Refusal :=
  s.runEffect .f2 (setOp Config.baseBytes src toP)

/-- SET_W (R137). -/
def execSetW (src toP : Word) (s : State) : Host.Outcome State Fault Refusal :=
  s.runEffect .f2 (setOp Config.wideBytes src toP)

end Sys2Proof.Machine
end

