-- ==== Sys2Proof/Machine/Nop.lean ====
section
/-! DEFINITION. NOP (spec 46_nop R139). -/

namespace Sys2Proof.Machine

/-- The empty effect (R139). -/
def emptyOp (m : Memory) : Except Failure Memory := .ok m

/-- NOP (R139): the only change is the IP advance. -/
def execNop (s : State) : Host.Outcome State Fault Refusal :=
  s.runEffect .f0 emptyOp

end Sys2Proof.Machine
end

