-- ==== Sys2Proof/Machine/Unary.lean ====
section
/-! DEFINITION. The unary operations (spec 42_unary_ops R116 to R119). -/

namespace Sys2Proof.Machine

/-- The effect of NOT (R116). -/
def notOp (n : Nat) (inp result : Word) (m : Memory) : Except Failure Memory := do
  let x ← readDirect m n inp
  checkDirect m n result
  writeDirect m n result (opNot n x)

/-- NOT (R116). -/
def execNot (inp result : Word) (s : State) : Host.Outcome State Fault Refusal :=
  s.runEffect .f2 (notOp Config.baseBytes inp result)

/-- The common effect of the shifts (R117 to R119): operand, destination check, amount check, then the write. -/
def shiftOp (n : Nat) (f : Nat → Nat → Nat) (inp bits result : Word) (m : Memory) : Except Failure Memory := do
  let x ← readDirect m n inp
  checkDirect m n result
  checkShift n bits
  writeDirect m n result (f x bits.toNat)

/-- LSHIFT (R118). -/
def execLshift (inp bits result : Word) (s : State) : Host.Outcome State Fault Refusal :=
  s.runEffect .f3 (shiftOp Config.baseBytes (opShl Config.baseBytes) inp bits result)

/-- RSHIFT (R119). -/
def execRshift (inp bits result : Word) (s : State) : Host.Outcome State Fault Refusal :=
  s.runEffect .f3 (shiftOp Config.baseBytes opShr inp bits result)

end Sys2Proof.Machine
end

