-- ==== Sys2Proof/Machine/Dispatch.lean ====
section
/-! DEFINITION. The effect of every opcode, one arm per row of the decode table (spec 30_encoding R66, R73). -/

namespace Sys2Proof.Machine

def exec (i : Instr) (s : State) : Host.Outcome State Fault Refusal :=
  match i with
  | .add a b result => Sys2Proof.Machine.execAdd a b result s
  | .sub a b result => Sys2Proof.Machine.execSub a b result s
  | .mul a b result => Sys2Proof.Machine.execMul a b result s
  | .div a b result => Sys2Proof.Machine.execDiv a b result s
  | .and a b result => Sys2Proof.Machine.execAnd a b result s
  | .or a b result => Sys2Proof.Machine.execOr a b result s
  | .xor a b result => Sys2Proof.Machine.execXor a b result s
  | .addW a b result => Sys2Proof.Machine.execAddW a b result s
  | .subW a b result => Sys2Proof.Machine.execSubW a b result s
  | .mulW a b result => Sys2Proof.Machine.execMulW a b result s
  | .divW a b result => Sys2Proof.Machine.execDivW a b result s
  | .andW a b result => Sys2Proof.Machine.execAndW a b result s
  | .orW a b result => Sys2Proof.Machine.execOrW a b result s
  | .xorW a b result => Sys2Proof.Machine.execXorW a b result s
  | .not inp result => Sys2Proof.Machine.execNot inp result s
  | .lshift inp bits result => Sys2Proof.Machine.execLshift inp bits result s
  | .rshift inp bits result => Sys2Proof.Machine.execRshift inp bits result s
  | .jumpV addr => Sys2Proof.Machine.execJumpV addr s
  | .jump addr => Sys2Proof.Machine.execJump addr s
  | .cjump a b addr => Sys2Proof.Machine.execCjump a b addr s
  | .cjumpW a b addr => Sys2Proof.Machine.execCjumpW a b addr s
  | .cmp a b result => Sys2Proof.Machine.execCmp a b result s
  | .cmpW a b result => Sys2Proof.Machine.execCmpW a b result s
  | .setV addr value => Sys2Proof.Machine.execSetV addr value s
  | .setVW addr value => Sys2Proof.Machine.execSetVW addr value s
  | .copy src dst => Sys2Proof.Machine.execCopy src dst s
  | .copyW src dst => Sys2Proof.Machine.execCopyW src dst s
  | .get fromP dst => Sys2Proof.Machine.execGet fromP dst s
  | .getW fromP dst => Sys2Proof.Machine.execGetW fromP dst s
  | .set src toP => Sys2Proof.Machine.execSet src toP s
  | .setW src toP => Sys2Proof.Machine.execSetW src toP s
  | .nop => Sys2Proof.Machine.execNop s

end Sys2Proof.Machine
end

