-- ==== Sys2Proof/Machine/Fetch.lean ====
section
/-! DEFINITION. Fetch and decode from memory, the part the stepper and the disassembler share (spec 40_stepper R82 to R86,
R99), and how the host puts an instruction where the next step fetches it (70_reset_and_hazards R183, R184). -/

namespace Sys2Proof.Machine

/-- Decode the instruction at `c`, seeing no byte at or above `limit` (R142). The view holds the bytes an instruction can have;
reads have no side effects (R48), so bytes of the view that the tag's width does not reach change nothing (log 10). -/
def decodeAt (m : Memory) (c limit : Nat) : Decoded := decode (m.bytes c (min longestWidth (limit - c)))

/-- Phases 1 to 3 (R82 to R86): the instruction the IP points at, or the failure of the tag fetch, the dispatch check or the
record read, in this order (R168). -/
def fetch (m : Memory) : Except Failure Instr :=
  let ip := m.ip.toNat
  match decodeAt m ip m.size with
  | .instr i _ => .ok i
  | .invalidOpcode tag => .error (.invalidOpcode tag)
  | .truncated _ width => .error (.outOfBounds (ip + 1) (width - 1))
  | .empty => .error (.outOfBounds ip 1)

/-- Where a loaded instruction goes: at the IP when the IP is past its own slot and the longest instruction fits there, else
at 0x0002, "directly after the slot" (R24, R184). The slot itself cannot be executed (R97). -/
def loadAddress (m : Memory) : Nat :=
  if 2 ≤ m.ip.toNat ∧ m.ip.toNat + longestWidth ≤ m.size then m.ip.toNat else 2

/-- What the host does to run one instruction (R184): it writes the instruction's bytes within memory and its address into the
IP slot, and resets with that image, so that the machine is Ready (R181, log 4). -/
def State.load (s : State) (bytes : List Byte) : State :=
  let place := loadAddress s.mem
  State.committed ((s.mem.storeBytes place (bytes.take (s.mem.size - place))).setIp (BitVec.ofNat 16 place))

end Sys2Proof.Machine
end

