-- ==== Sys2Proof/Machine/Step.lean ====
section
/-! DEFINITION. One step of the stepper (spec 40_stepper R80 to R90). -/

namespace Sys2Proof.Machine

/-- `Step(S)` (R90): nothing while Halted (R81); else fetch and decode from the memory before the step (R86), then advance, run
the effect and commit, which is `exec`. A failure of either part halts with nothing committed (R89). -/
def step (s : State) : Host.Outcome State Fault Refusal :=
  match s.run with
  | .halted => .next s
  | .ready =>
    if s.mem.params.Legal then
      match fetch s.mem with
      | .ok i => exec i s
      | .error e => .next (s.takeFailure e)
    else .fault .illegalParams

/-- The state with the instruction of a table word stored where the next step fetches it, and Ready (log 4). -/
def State.withFetchWord (s : State) (nbits w : Nat) : State := s.load (tableBytes nbits w)

end Sys2Proof.Machine
end

