-- ==== Sys2Proof/Machine/Disassembler.lean ====
section
/-! DEFINITION. The disassembler: instruction formatter and range walk (spec 49_disassembler R140 to R157). It reads memory
and changes nothing (R140). -/

namespace Sys2Proof.Machine

/-- One uppercase hexadecimal digit (R144). -/
def hexDigit (d : Nat) : Char := if d < 10 then Char.ofNat (48 + d) else Char.ofNat (55 + d)

/-- `HEX4(v)`: `0x` and exactly four digits (R144). -/
def hex4 (v : Nat) : String :=
  "0x" ++ String.ofList
    [hexDigit (v / 4096 % 16), hexDigit (v / 256 % 16), hexDigit (v / 16 % 16), hexDigit (v % 16)]

/-- `HEX2(v)`: `0x` and exactly two digits (R144). -/
def hex2 (v : Byte) : String :=
  "0x" ++ String.ofList [hexDigit (v.toNat / 16 % 16), hexDigit (v.toNat % 16)]

/-- One rendered field: a space, the name, `=`, the full 16-bit value (R143, R144). -/
def renderField (f : Field) : String := " " ++ f.name ++ "=" ++ hex4 f.value.toNat

/-- The instruction's text without the address: the spec's assembly notation (R77, R143). -/
def Instr.text (i : Instr) : String := i.row.mnemonic ++ String.join (i.row.fields.map renderField)

/-- `RENDER(c, tag, fields)` (R143). -/
def render (c : Nat) (i : Instr) : String := hex4 c ++ ": " ++ Instr.text i

/-- The statuses a walk or a format ends with (R142, R149). -/
inductive WalkStatus where
  | complete
  | unrecognised (c : Nat) (tag : Byte)
  | truncated (c : Nat) (tag : Byte)
  | rangeOutOfBounds (stop : Nat)
  | outOfRange (c : Nat)
deriving DecidableEq, Repr

/-- What `FormatAt` returns: `Line(text, w)` or `Stop(text, status)` (R142). -/
inductive Formatted where
  | line (text : String) (width : Nat)
  | stop (text : String) (status : WalkStatus)
deriving DecidableEq, Repr

/-- `FormatAt(mem, c, limit)` (R142), with `limit <= MEM_SIZE`. It uses the stepper's decode (R99, R141). -/
def formatAt (m : Memory) (c limit : Nat) : Formatted :=
  match decodeAt m c limit with
  | .instr i _ => .line (render c i) i.width
  | .invalidOpcode tag => .stop (hex4 c ++ ": unrecognised code " ++ hex2 tag) (.unrecognised c tag)
  | .truncated tag _ => .stop (hex4 c ++ ": truncated code " ++ hex2 tag) (.truncated c tag)
  | .empty => .stop (hex4 c ++ ": out of range") (.outOfRange c)

/-- The loop of R148, at most `fuel` instructions long; every instruction has at least one byte, so `stop - c` is enough. -/
def walk (m : Memory) (stop : Nat) : Nat → Nat → List String × WalkStatus
  | 0, _ => ([], .complete)
  | fuel + 1, c =>
    if c < stop then
      match formatAt m c stop with
      | .stop text status => ([text], status)
      | .line text w =>
        let rest := walk m stop fuel (c + w)
        (text :: rest.1, rest.2)
    else ([], .complete)

/-- `Disassemble(mem, start, end)` over the half-open range `[start, stop)` (R147, R148). -/
def disassemble (m : Memory) (start stop : Nat) : List String × WalkStatus :=
  if stop > m.size then ([], .rangeOutOfBounds stop) else walk m stop (stop - start) start

/-- The output of a walk as one text: every line ends with a line feed (R145). -/
def outputText (lines : List String) : String := String.join (lines.map (· ++ "\n"))

/-- The trace line of the instruction the next step will execute (R153). -/
def traceLine (m : Memory) : Formatted := formatAt m m.ip.toNat m.size

end Sys2Proof.Machine
end

