-- ==== Sys2Proof/Machine/HostInterface.lean ====
section
/-! DEFINITION. The host's transactions, the core's whole interface (spec 60_exceptions R162, R171; 70_reset_and_hazards R181
to R185), runs (40_stepper R93) and traces (49_disassembler R153). A transaction never falls inside a step (20_memory R54). -/

namespace Sys2Proof.Machine

/-- The numeric cause code (R162). -/
def HaltRecord.code : HaltRecord → Nat
  | .none => 0
  | .halted (.outOfBounds _ _) _ => 1
  | .halted (.invalidOpcode _) _ => 2
  | .halted .divisionByZero _ => 3
  | .halted (.invalidShiftAmount _) _ => 4

/-- The cells of an image whose first byte is at `addr`. -/
def imageCells (addr : Nat) : List Byte → List Host.Cell
  | [] => []
  | b :: rest => if b = blankByte then imageCells (addr + 1) rest else (addr, b) :: imageCells (addr + 1) rest

/-- Memory holding an image from address 0 (R181). -/
def Memory.ofImage (p : Config.Params) (image : List Byte) : Memory := { params := p, cells := imageCells 0 image }

/-- The image of a memory: its `MEM_SIZE` bytes. With the run state and the halt record it is a snapshot (R185). -/
def Memory.image (m : Memory) : List Byte := m.bytes 0 m.size

/-- `Reset(image)` (R181): memory becomes the image, Ready, no halt record. Only the parameters stay, memory "is never
resized" (R21). -/
def State.resetWith (s : State) (image : List Byte) : State := State.committed (Memory.ofImage s.mem.params image)

/-- The default image of `Reset`: all zero (R171). -/
def zeroImage (p : Config.Params) : List Byte := List.replicate p.memSize 0x00

/-- The host's transactions (R171). -/
inductive Transaction where
  | reset (image : List Byte)
  | hostWrite (addr : Nat) (bytes : List Byte)
  | hostRead (addr n : Nat)
  | step
  | status
  | formatAt (c : Word) (limit : Nat)
  | disassemble (start stop : Nat)
deriving DecidableEq, Repr

/-- What a transaction returns (R80, R171). -/
inductive Response where
  /-- Nothing to return: Reset. -/
  | none
  /-- `Ok` of HostWrite. -/
  | ok
  /-- `OutOfBounds(addr, n)` of HostWrite and HostRead; the stepper does not halt. -/
  | outOfBounds (addr n : Nat)
  | bytes (bs : List Byte)
  /-- `Stepped`: the instruction completed (R80). -/
  | stepped
  /-- `Halted(record)`: the machine is or becomes Halted (R80, R81). -/
  | halted (record : HaltRecord)
  | status (run : RunState) (halt : HaltRecord)
  | formatted (f : Formatted)
  | listing (lines : List String) (status : WalkStatus)
  /-- The request is outside the domain the spec states for it; the model has no transition and nothing changes (log 5). -/
  | noTransition
deriving DecidableEq, Repr

/-- The result of a step for the host, read off the state it leaves (R80). -/
def stepResponse (s : State) : Response :=
  match s.run with
  | .ready => .stepped
  | .halted => .halted s.halt

/-- One host transaction: the next state and the response (R171). HostWrite is all or nothing (D23). -/
def transact (t : Transaction) (s : State) : State × Response :=
  match t with
  | .reset image => if ImageFits s.mem.params image then (s.resetWith image, .none) else (s, .noTransition)
  | .hostWrite addr bytes =>
    if addr + bytes.length > s.mem.size then (s, .outOfBounds addr bytes.length)
    else ({ s with mem := s.mem.storeBytes addr bytes }, .ok)
  | .hostRead addr n =>
    if addr + n > s.mem.size then (s, .outOfBounds addr n) else (s, .bytes (s.mem.bytes addr n))
  | .step =>
    match Sys2Proof.Machine.step s with
    | .next s' => (s', stepResponse s')
    | _ => (s, .noTransition)
  | .status => (s, .status s.run s.halt)
  | .formatAt c limit =>
    if limit ≤ s.mem.size then (s, .formatted (Sys2Proof.Machine.formatAt s.mem c.toNat limit)) else (s, .noTransition)
  | .disassemble start stop =>
    let (lines, status) := Sys2Proof.Machine.disassemble s.mem start stop
    (s, .listing lines status)

/-- `Run(S, k)` (R93): `k` steps, or up to the first that leaves the machine Halted. The step count is the host's (R193). -/
def run : Nat → State → Host.Outcome State Fault Refusal
  | 0, s => .next s
  | k + 1, s =>
    match Sys2Proof.Machine.step s with
    | .next s' =>
      match s'.run with
      | .ready => run k s'
      | .halted => .next s'
    | stopped => stopped

/-- The text of a trace entry (R153). -/
def Formatted.text : Formatted → String
  | .line text _ => text
  | .stop text _ => text

/-- The trace of a run of at most `k` steps: one line per step, taken while Ready, before the step (R153). -/
def trace : Nat → State → List String
  | 0, _ => []
  | k + 1, s =>
    match s.run with
    | .halted => []
    | .ready =>
      (traceLine s.mem).text ::
        match Sys2Proof.Machine.step s with
        | .next s' => trace k s'
        | _ => []

end Sys2Proof.Machine
end

