-- ==== Sys2Proof/Safety.lean ====
section
/-! DEFINITION. What counts as a state of the spec's machine, and what counts as a safe run. -/

namespace Sys2Proof.Machine

/-- The ranges R28 gives the halt record, and that it names a failure that can happen on this machine: an access that leaves
memory (R164), a tag outside the closed set (R165), a shift amount above the operand width (R167). -/
def Failure.Truthful (p : Config.Params) : Failure → Prop
  | .outOfBounds addr n => addr ≤ 0x10000 ∧ 1 ≤ n ∧ n ≤ 6 ∧ p.memSize < addr + n
  | .invalidOpcode tag => rom tag = none
  | .divisionByZero => True
  | .invalidShiftAmount bits => 8 < bits.toNat

/-- A halt record is `None` or a truthful failure (R28). -/
def HaltRecord.Truthful (p : Config.Params) : HaltRecord → Prop
  | .none => True
  | .halted cause _ => cause.Truthful p

/-- The invariant of the machine: legal parameters (R8), memory in canonical form and within its size (R21, R22), Ready
exactly when there is no halt record (R37), and a truthful halt record (R28). -/
structure State.Inv (s : State) : Prop where
  legal : s.mem.params.Legal
  memory : s.mem.wf
  runHalt : s.run = .ready ↔ s.halt = .none
  record : s.halt.Truthful s.mem.params

/-- A run of `k` steps is safe when no failure halts it: it ends Ready (R93, R161). -/
def SafeRun (k : Nat) (s : State) : Prop := ∃ t, run k s = .next t ∧ t.run = .ready

end Sys2Proof.Machine
end

