-- ==== Sys2Proof/Certificates/Slice0/Obligations.lean ====
section
/-! DEFINITION. The statements for the provers, and the terms they are written in. The terms are written again from the spec, byte
by byte, and do not call the operations the meanings are built from: only `byteAt`, one byte of memory, and `ip`, which
`Obligations.IpIsBytesZeroAndOne` pins down. -/

namespace Sys2Proof.Claims

open Sys2Proof.Machine

/-- The access of `n` bytes at `a` is inside memory (R22). -/
def Inside (s : State) (a n : Nat) : Prop := a + n ≤ s.mem.params.memSize

/-- The IP after the default advance by `w` bytes, modulo 2^16 (R87). -/
def nextIp (s : State) (w : Nat) : Word := s.mem.ip + BitVec.ofNat 16 w

/-- The byte an effect sees at an address: bytes 0 and 1 hold the advanced IP, every other byte is as before the step (R87,
R91). -/
def seenByte (s : State) (w a : Nat) : Byte :=
  if a = 0 then loByte (nextIp s w) else if a = 1 then hiByte (nextIp s w) else s.mem.byteAt a

/-- The little-endian value of `n` bytes that an effect sees at an address (R42, R91). -/
def seen (s : State) (w a : Nat) : Nat → Nat
  | 0 => 0
  | n + 1 => (seenByte s w a).toNat + 256 * seen s w (a + 1) n

/-- How a successful instruction of width `w` leaves the machine: Ready, no halt record, parameters as before, the `n` bytes of
`v` stored at `a`, and EVERY other byte as the effect saw it, that is unchanged outside the IP slot (R87, R89). -/
def Stored (s : State) (w : Nat) (t : State) (a n v : Nat) : Prop :=
  t.run = .ready ∧ t.halt = .none ∧ t.mem.params = s.mem.params ∧
    ∀ x, t.mem.byteAt x = if a ≤ x ∧ x < a + n then BitVec.ofNat 8 (v / 256 ^ (x - a)) else seenByte s w x

/-- As `Stored`, with nothing stored: the IP advance is the only change. -/
def OnlyAdvanced (s : State) (w : Nat) (t : State) : Prop :=
  t.run = .ready ∧ t.halt = .none ∧ t.mem.params = s.mem.params ∧ ∀ x, t.mem.byteAt x = seenByte s w x

/-- A control transfer to `target`: bytes 0 and 1 hold the target, every other byte is as before the step. -/
def Jumped (s t : State) (target : Word) : Prop :=
  t.run = .ready ∧ t.halt = .none ∧ t.mem.params = s.mem.params ∧ t.mem.ip = target ∧
    ∀ x, t.mem.byteAt x = if x = 0 then loByte target else if x = 1 then hiByte target else s.mem.byteAt x

/-- The halted machine after a failure: memory as before the step, the record with the failing instruction's address (R89,
R163). -/
def haltedBy (s : State) (e : Failure) : State := { mem := s.mem, run := .halted, halt := .halted e s.mem.ip }

/-- A machine whose next step is executed: Ready, with the parameters R8 allows. -/
def Runnable (s : State) : Prop := s.run = .ready ∧ s.mem.params.Legal

/-- The three field bytes pairs of an F3 record after its tag (R62). -/
def bytesF3 (tag : Byte) (f₁ f₂ f₃ : Word) : List Byte :=
  [tag, loByte f₁, hiByte f₁, loByte f₂, hiByte f₂, loByte f₃, hiByte f₃]

/-- The two field byte pairs of an F2 record after its tag (R62). -/
def bytesF2 (tag : Byte) (f₁ f₂ : Word) : List Byte := [tag, loByte f₁, hiByte f₁, loByte f₂, hiByte f₂]

/-! ### The common shapes of the instruction rules -/

/-- A rule of shape `BinOp(N, f)` (R100) without a divisor check: encoding, result and frame, and the failures in order. -/
def BinaryRule (make : Word → Word → Word → Instr) (tag : Byte) (n : Nat) (f : Nat → Nat → Nat) : Prop :=
  ∀ (s : State) (a b r : Word),
    encode (make a b r) = bytesF3 tag a b r ∧
    (Inside s a.toNat n → Inside s b.toNat n → Inside s r.toNat n →
      ∃ t, exec (make a b r) s = .next t ∧
        Stored s 7 t r.toNat n (f (seen s 7 a.toNat n) (seen s 7 b.toNat n))) ∧
    (¬Inside s a.toNat n → exec (make a b r) s = .next (haltedBy s (.outOfBounds a.toNat n))) ∧
    (Inside s a.toNat n → ¬Inside s b.toNat n →
      exec (make a b r) s = .next (haltedBy s (.outOfBounds b.toNat n))) ∧
    (Inside s a.toNat n → Inside s b.toNat n → ¬Inside s r.toNat n →
      exec (make a b r) s = .next (haltedBy s (.outOfBounds r.toNat n)))

/-- The rule of DIV and DIV_W (R104, R111): as `BinaryRule`, and a zero divisor fails after the three bounds checks. -/
def DivRule (make : Word → Word → Word → Instr) (tag : Byte) (n : Nat) : Prop :=
  ∀ (s : State) (a b r : Word),
    encode (make a b r) = bytesF3 tag a b r ∧
    (Inside s a.toNat n → Inside s b.toNat n → Inside s r.toNat n → seen s 7 b.toNat n ≠ 0 →
      ∃ t, exec (make a b r) s = .next t ∧
        Stored s 7 t r.toNat n (seen s 7 a.toNat n / seen s 7 b.toNat n)) ∧
    (Inside s a.toNat n → Inside s b.toNat n → Inside s r.toNat n → seen s 7 b.toNat n = 0 →
      exec (make a b r) s = .next (haltedBy s .divisionByZero)) ∧
    (¬Inside s a.toNat n → exec (make a b r) s = .next (haltedBy s (.outOfBounds a.toNat n))) ∧
    (Inside s a.toNat n → ¬Inside s b.toNat n →
      exec (make a b r) s = .next (haltedBy s (.outOfBounds b.toNat n))) ∧
    (Inside s a.toNat n → Inside s b.toNat n → ¬Inside s r.toNat n →
      exec (make a b r) s = .next (haltedBy s (.outOfBounds r.toNat n)))

/-- The rule of LSHIFT and RSHIFT (R117 to R119): the amount is the whole field, checked after both bounds checks. -/
def ShiftRule (make : Word → Word → Word → Instr) (tag : Byte) (f : Nat → Nat → Nat) : Prop :=
  ∀ (s : State) (inp bits r : Word),
    encode (make inp bits r) = bytesF3 tag inp bits r ∧
    (Inside s inp.toNat 1 → Inside s r.toNat 1 → bits.toNat ≤ 8 →
      ∃ t, exec (make inp bits r) s = .next t ∧ Stored s 7 t r.toNat 1 (f (seen s 7 inp.toNat 1) bits.toNat)) ∧
    (Inside s inp.toNat 1 → Inside s r.toNat 1 → 8 < bits.toNat →
      exec (make inp bits r) s = .next (haltedBy s (.invalidShiftAmount bits))) ∧
    (¬Inside s inp.toNat 1 → exec (make inp bits r) s = .next (haltedBy s (.outOfBounds inp.toNat 1))) ∧
    (Inside s inp.toNat 1 → ¬Inside s r.toNat 1 →
      exec (make inp bits r) s = .next (haltedBy s (.outOfBounds r.toNat 1)))

/-- The rule of CJUMP and CJUMP_W (R122, R123): taken exactly when the operands are equal at width `n`. -/
def CjumpRule (make : Word → Word → Word → Instr) (tag : Byte) (n : Nat) : Prop :=
  ∀ (s : State) (a b target : Word),
    encode (make a b target) = bytesF3 tag a b target ∧
    (Inside s a.toNat n → Inside s b.toNat n → seen s 7 a.toNat n = seen s 7 b.toNat n →
      ∃ t, exec (make a b target) s = .next t ∧ Jumped s t target) ∧
    (Inside s a.toNat n → Inside s b.toNat n → seen s 7 a.toNat n ≠ seen s 7 b.toNat n →
      ∃ t, exec (make a b target) s = .next t ∧ OnlyAdvanced s 7 t) ∧
    (¬Inside s a.toNat n → exec (make a b target) s = .next (haltedBy s (.outOfBounds a.toNat n))) ∧
    (Inside s a.toNat n → ¬Inside s b.toNat n →
      exec (make a b target) s = .next (haltedBy s (.outOfBounds b.toNat n)))

/-- The rule of SET_V and SET_VW (R130, R131): `v` is what the immediate stores. -/
def StoreRule (make : Word → Word → Instr) (tag : Byte) (n : Nat) (v : Word → Nat) : Prop :=
  ∀ (s : State) (addr value : Word),
    encode (make addr value) = bytesF2 tag addr value ∧
    (Inside s addr.toNat n →
      ∃ t, exec (make addr value) s = .next t ∧ Stored s 5 t addr.toNat n (v value)) ∧
    (¬Inside s addr.toNat n → exec (make addr value) s = .next (haltedBy s (.outOfBounds addr.toNat n)))

/-- The rule of COPY and COPY_W (R132, R133). -/
def CopyRule (make : Word → Word → Instr) (tag : Byte) (n : Nat) : Prop :=
  ∀ (s : State) (src dst : Word),
    encode (make src dst) = bytesF2 tag src dst ∧
    (Inside s src.toNat n → Inside s dst.toNat n →
      ∃ t, exec (make src dst) s = .next t ∧ Stored s 5 t dst.toNat n (seen s 5 src.toNat n)) ∧
    (¬Inside s src.toNat n → exec (make src dst) s = .next (haltedBy s (.outOfBounds src.toNat n))) ∧
    (Inside s src.toNat n → ¬Inside s dst.toNat n →
      exec (make src dst) s = .next (haltedBy s (.outOfBounds dst.toNat n)))

/-- The rule of GET and GET_W (R134, R135): the pointer is the two bytes at `fromP`, whatever the operand width. -/
def GetRule (make : Word → Word → Instr) (tag : Byte) (n : Nat) : Prop :=
  ∀ (s : State) (fromP dst : Word),
    let p := seen s 5 fromP.toNat 2
    encode (make fromP dst) = bytesF2 tag fromP dst ∧
    (Inside s fromP.toNat 2 → Inside s p n → Inside s dst.toNat n →
      ∃ t, exec (make fromP dst) s = .next t ∧ Stored s 5 t dst.toNat n (seen s 5 p n)) ∧
    (¬Inside s fromP.toNat 2 → exec (make fromP dst) s = .next (haltedBy s (.outOfBounds fromP.toNat 2))) ∧
    (Inside s fromP.toNat 2 → ¬Inside s p n → exec (make fromP dst) s = .next (haltedBy s (.outOfBounds p n))) ∧
    (Inside s fromP.toNat 2 → Inside s p n → ¬Inside s dst.toNat n →
      exec (make fromP dst) s = .next (haltedBy s (.outOfBounds dst.toNat n)))

/-- The rule of SET and SET_W (R136, R137): the address stored to is the pointer at `toP`. -/
def SetRule (make : Word → Word → Instr) (tag : Byte) (n : Nat) : Prop :=
  ∀ (s : State) (src toP : Word),
    let p := seen s 5 toP.toNat 2
    encode (make src toP) = bytesF2 tag src toP ∧
    (Inside s src.toNat n → Inside s toP.toNat 2 → Inside s p n →
      ∃ t, exec (make src toP) s = .next t ∧ Stored s 5 t p n (seen s 5 src.toNat n)) ∧
    (¬Inside s src.toNat n → exec (make src toP) s = .next (haltedBy s (.outOfBounds src.toNat n))) ∧
    (Inside s src.toNat n → ¬Inside s toP.toNat 2 →
      exec (make src toP) s = .next (haltedBy s (.outOfBounds toP.toNat 2))) ∧
    (Inside s src.toNat n → Inside s toP.toNat 2 → ¬Inside s p n →
      exec (make src toP) s = .next (haltedBy s (.outOfBounds p n)))

/-! ### The order of the checks (R168), read off the decode table -/

/-- The accesses a field causes: a pointer field names its pointer first, then the pointer's target. `w` is the instruction's
width and `n` its operand width, 0 where it has none. -/
def fieldAccesses (s : State) (w n : Nat) (f : Field) : List (Nat × Nat) :=
  match f.kind with
  | .source => [(f.value.toNat, n)]
  | .destination => [(f.value.toNat, n)]
  | .pointer => if n = 0 then [(f.value.toNat, 2)] else [(f.value.toNat, 2), (seen s w f.value.toNat 2, n)]
  | .immediate => []

/-- The accesses of an effect that are checked, in the order of R168. -/
def effectAccesses (s : State) (i : Instr) : List (Nat × Nat) :=
  i.row.fields.flatMap (fieldAccesses s i.width i.row.operandBytes)

/-- The value checks, which come after every bounds check (R168). -/
def valueFailure (s : State) : Instr → Option Failure
  | .div _ b _ => if seen s 7 b.toNat 1 = 0 then some .divisionByZero else none
  | .divW _ b _ => if seen s 7 b.toNat 2 = 0 then some .divisionByZero else none
  | .lshift _ bits _ => if 8 < bits.toNat then some (.invalidShiftAmount bits) else none
  | .rshift _ bits _ => if 8 < bits.toNat then some (.invalidShiftAmount bits) else none
  | _ => none

/-- The first failure of an effect (R168). -/
def effectFailure (s : State) (i : Instr) : Option Failure :=
  match (effectAccesses s i).find? (fun x => decide (s.mem.params.memSize < x.1 + x.2)) with
  | some x => some (.outOfBounds x.1 x.2)
  | none => valueFailure s i

/-- The first failure of a step, in the order of R168: tag fetch, dispatch check, record, then the effect's. -/
def stepFailure (s : State) : Option Failure :=
  let ip := s.mem.ip.toNat
  if s.mem.params.memSize < ip + 1 then some (.outOfBounds ip 1)
  else match rom (s.mem.byteAt ip) with
    | none => some (.invalidOpcode (s.mem.byteAt ip))
    | some shape =>
      if s.mem.params.memSize < ip + shape.format.width then some (.outOfBounds (ip + 1) (shape.format.width - 1))
      else match shape.readRecord (s.mem.bytes (ip + 1) (shape.format.width - 1)) with
        | some (i, _) => effectFailure s i
        | none => none

/-- The address an instruction's effect stores data to and how many bytes, from its fields: none for the control transfers and NOP
(95_test_vectors §4). -/
def storesTo (s : State) : Instr → Option (Nat × Nat)
  | .set _ toP => some (seen s 5 toP.toNat 2, 1)
  | .setW _ toP => some (seen s 5 toP.toNat 2, 2)
  | i => (i.row.fields.find? fun f => f.kind = .destination).map fun f => (f.value.toNat, i.row.operandBytes)

/-- The control transfers (R76). -/
def isTransfer : Instr → Bool
  | .jumpV _ | .jump _ | .cjump _ _ _ | .cjumpW _ _ _ => true
  | _ => false

/-- The lines of a byte-for-byte sequence of instructions from address `c` on (R148). -/
def sweepLines : Nat → List Instr → List String
  | _, [] => []
  | c, i :: rest => render c i :: sweepLines (c + i.width) rest

/-! ### The lines of the disassembler, spelled from R66, R143 and R144 -/

/-- The sixteen uppercase hexadecimal digits (R144). -/
def upperDigit (d : Nat) : String :=
  ["0", "1", "2", "3", "4", "5", "6", "7", "8", "9", "A", "B", "C", "D", "E", "F"].getD d ""

/-- `0x` and four digits, leading zeros kept (R144). -/
def fourDigits (v : Nat) : String :=
  "0x" ++ upperDigit (v / 4096) ++ upperDigit (v / 256 % 16) ++ upperDigit (v / 16 % 16) ++ upperDigit (v % 16)

/-- `0x` and two digits (R144). -/
def twoDigits (v : Nat) : String := "0x" ++ upperDigit (v / 16) ++ upperDigit (v % 16)

/-- The row of R66 for an instruction: its tag, its mnemonic, and its fields, named, in order, with their values. -/
def tableRow : Instr → Byte × String × List (String × Word)
  | .add x y z => (0x01, "ADD", [("a", x), ("b", y), ("result", z)])
  | .sub x y z => (0x02, "SUB", [("a", x), ("b", y), ("result", z)])
  | .mul x y z => (0x03, "MUL", [("a", x), ("b", y), ("result", z)])
  | .div x y z => (0x04, "DIV", [("a", x), ("b", y), ("result", z)])
  | .and x y z => (0x05, "AND", [("a", x), ("b", y), ("result", z)])
  | .or x y z => (0x06, "OR", [("a", x), ("b", y), ("result", z)])
  | .xor x y z => (0x07, "XOR", [("a", x), ("b", y), ("result", z)])
  | .addW x y z => (0x08, "ADD_W", [("a", x), ("b", y), ("result", z)])
  | .subW x y z => (0x09, "SUB_W", [("a", x), ("b", y), ("result", z)])
  | .mulW x y z => (0x0A, "MUL_W", [("a", x), ("b", y), ("result", z)])
  | .divW x y z => (0x0B, "DIV_W", [("a", x), ("b", y), ("result", z)])
  | .andW x y z => (0x0C, "AND_W", [("a", x), ("b", y), ("result", z)])
  | .orW x y z => (0x0D, "OR_W", [("a", x), ("b", y), ("result", z)])
  | .xorW x y z => (0x0E, "XOR_W", [("a", x), ("b", y), ("result", z)])
  | .not x y => (0x0F, "NOT", [("in", x), ("result", y)])
  | .lshift x y z => (0x10, "LSHIFT", [("in", x), ("bits", y), ("result", z)])
  | .rshift x y z => (0x11, "RSHIFT", [("in", x), ("bits", y), ("result", z)])
  | .jumpV x => (0x12, "JUMP_V", [("addr", x)])
  | .jump x => (0x13, "JUMP", [("addr", x)])
  | .cjump x y z => (0x14, "CJUMP", [("a", x), ("b", y), ("addr", z)])
  | .cjumpW x y z => (0x15, "CJUMP_W", [("a", x), ("b", y), ("addr", z)])
  | .cmp x y z => (0x16, "CMP", [("a", x), ("b", y), ("result", z)])
  | .cmpW x y z => (0x17, "CMP_W", [("a", x), ("b", y), ("result", z)])
  | .setV x y => (0x18, "SET_V", [("addr", x), ("value", y)])
  | .setVW x y => (0x19, "SET_VW", [("addr", x), ("value", y)])
  | .copy x y => (0x1A, "COPY", [("from", x), ("to", y)])
  | .copyW x y => (0x1B, "COPY_W", [("from", x), ("to", y)])
  | .get x y => (0x1C, "GET", [("from_p", x), ("to", y)])
  | .getW x y => (0x1D, "GET_W", [("from_p", x), ("to", y)])
  | .set x y => (0x1E, "SET", [("from", x), ("to_p", y)])
  | .setW x y => (0x1F, "SET_W", [("from", x), ("to_p", y)])
  | .nop => (0x20, "NOP", [])

/-- The fields of a line: each a space, its name, `=` and its full 16-bit value (R143, R144). -/
def fieldTexts : List (String × Word) → String
  | [] => ""
  | (name, value) :: rest => " " ++ name ++ "=" ++ fourDigits value.toNat ++ fieldTexts rest

/-- The line of an instruction at address `c` (R143). -/
def lineOf (c : Nat) (i : Instr) : String :=
  fourDigits c ++ ": " ++ (tableRow i).2.1 ++ fieldTexts (tableRow i).2.2

end Sys2Proof.Claims

open Sys2Proof Sys2Proof.Machine Sys2Proof.Claims

/-! ### Encoding and decoding -/

/-- R58, R60, R61, R62, R66, R71: the decoder reads back every instruction, at every value of every field, whatever bytes
follow, and consumes exactly its encoding. -/
def Obligations.DecodeReadsEveryEncoding : Prop :=
  ∀ (i : Instr) (rest : List Byte), decode (encode i ++ rest) = .instr i rest

/-- R59, R71, R72: bytes that decode to an instruction are its encoding and the rest. No two byte strings of one length stand for
one instruction. -/
def Obligations.DecodeAcceptsOnlyEncodings : Prop :=
  ∀ (bs rest : List Byte) (i : Instr), decode bs = .instr i rest → bs = encode i ++ rest

/-- R69: the invalid tags are 0x00 and 0x21 to 0xFF; on one of them the decoder answers the tag whatever follows, the stepper
halts with InvalidOpcode, and the disassembler writes its line and stops. -/
def Obligations.InvalidTags : Prop :=
  ∀ tag : Byte, (tag = 0x00 ∨ 0x21 ≤ tag.toNat) →
    (∀ bs, decode (tag :: bs) = .invalidOpcode tag) ∧
    (∀ s : State, Runnable s → s.mem.ip.toNat < s.mem.params.memSize → s.mem.byteAt s.mem.ip.toNat = tag →
      step s = .next (haltedBy s (.invalidOpcode tag))) ∧
    (∀ (m : Memory) (c limit : Nat), c < limit → m.byteAt c = tag →
      formatAt m c limit = .stop (hex4 c ++ ": unrecognised code " ++ hex2 tag) (.unrecognised c tag)) ∧
    (∀ (m : Memory) (start stop : Nat), start < stop → stop ≤ m.params.memSize → m.byteAt start = tag →
      disassemble m start stop = ([hex4 start ++ ": unrecognised code " ++ hex2 tag], .unrecognised start tag))

/-- R69, R75: decoding at any address of any memory has exactly one outcome: a valid opcode with its field values, an invalid tag, or
a tag or record that would leave the limit. -/
def Obligations.DecodingIsTotal : Prop :=
  ∀ (m : Memory) (c limit : Nat),
    (limit ≤ c ∧ decodeAt m c limit = .empty) ∨
    (c < limit ∧ (m.byteAt c = 0x00 ∨ 0x21 ≤ (m.byteAt c).toNat) ∧ decodeAt m c limit = .invalidOpcode (m.byteAt c)) ∨
    (∃ shape, c < limit ∧ rom (m.byteAt c) = some shape ∧ limit < c + shape.format.width ∧
      decodeAt m c limit = .truncated (m.byteAt c) shape.format.width) ∨
    (∃ i rest, c + i.width ≤ limit ∧ m.bytes c i.width = encode i ∧ decodeAt m c limit = .instr i rest)

/-- R66, R79: words written out from the encoding tables decode to the instructions they stand for. -/
def Obligations.DecodeSampleWords : Prop :=
  decode [0x01, 0x00, 0x01, 0x01, 0x01, 0x02, 0x01] = .instr (.add 0x0100 0x0101 0x0102) [] ∧
  decode [0x0F, 0x00, 0x01, 0x01, 0x01] = .instr (.not 0x0100 0x0101) [] ∧
  decode [0x12, 0x10, 0x00] = .instr (.jumpV 0x0010) [] ∧
  decode [0x17, 0x00, 0x01, 0x02, 0x01, 0x04, 0x01] = .instr (.cmpW 0x0100 0x0102 0x0104) [] ∧
  decode [0x18, 0x00, 0x01, 0x2A, 0x00] = .instr (.setV 0x0100 0x002A) [] ∧
  decode [0x1A, 0x00, 0x01, 0x00, 0x02] = .instr (.copy 0x0100 0x0200) [] ∧
  decode [0x1E, 0x14, 0x01, 0x12, 0x01] = .instr (.set 0x0114 0x0112) [] ∧
  decode [0x20] = .instr .nop []

/-- R74: the width of every instruction is its tag and its fields, and the default advance of the stepper and the advance of the
disassembler are exactly that. The stepper's is read off an instruction that transfers no control and stores nothing in
the IP slot. -/
def Obligations.WidthLaw : Prop :=
  (∀ i : Instr, (encode i).length = 1 + 2 * i.row.fields.length ∧ i.width = (encode i).length) ∧
  (∀ (m : Memory) (c limit : Nat) (i : Instr) (rest : List Byte), decodeAt m c limit = .instr i rest →
    formatAt m c limit = .line (render c i) (encode i).length) ∧
  (∀ (s t : State) (i : Instr), isTransfer i = false → (∀ a n, storesTo s i = some (a, n) → 2 ≤ a) →
    exec i s = .next t → t.run = .ready → t.mem.ip = nextIp s (encode i).length)

/-! ### Memory -/

/-- R39: `MemRead` is the little-endian sum of the bytes, or OutOfBounds when the access leaves memory. -/
def Obligations.ReadIsLittleEndianSum : Prop :=
  ∀ (m : Memory) (a n : Nat),
    (m.params.memSize < a + n → memRead m a n = .error (.outOfBounds a n)) ∧
    (a + n ≤ m.params.memSize →
      memRead m a n = .ok (∑ i ∈ Finset.range n, (m.byteAt (a + i)).toNat * 256 ^ i))

/-- R40: `MemWrite` stores byte `i` of the value at `a + i` and changes no other byte, or fails when the access leaves memory. -/
def Obligations.WriteStoresBytes : Prop :=
  ∀ (m : Memory) (a n v : Nat),
    (m.params.memSize < a + n → memWrite m a n v = .error (.outOfBounds a n)) ∧
    (a + n ≤ m.params.memSize → ∃ m', memWrite m a n v = .ok m' ∧ m'.params = m.params ∧
      (∀ i, i < n → (m'.byteAt (a + i)).toNat = (v >>> (8 * i)) % 256) ∧
      (∀ x, (x < a ∨ a + n ≤ x) → m'.byteAt x = m.byteAt x))

/-- R51: the write-then-read round trip, and both fail alike. -/
def Obligations.WriteReadRoundTrip : Prop :=
  ∀ (m : Memory) (a n v : Nat), (n = 1 ∨ n = 2) →
    (a + n ≤ m.params.memSize → ∃ m', memWrite m a n v = .ok m' ∧ memRead m' a n = .ok (v % 2 ^ (8 * n))) ∧
    (m.params.memSize < a + n →
      memWrite m a n v = .error (.outOfBounds a n) ∧ memRead m a n = .error (.outOfBounds a n))

/-- R43: mixed-width access. A 16-bit read is its two bytes; a byte write at `a` changes the low half of the 16-bit value at `a`
and the high half of the one at `a - 1`. -/
def Obligations.MixedWidthAccess : Prop :=
  (∀ (m : Memory) (a : Nat), a + 2 ≤ m.params.memSize →
    memRead m a 2 = .ok ((m.byteAt a).toNat + 256 * (m.byteAt (a + 1)).toNat)) ∧
  (∀ (m m' : Memory) (a v : Nat), v < 256 → memWrite m a 1 v = .ok m' →
    (a + 2 ≤ m.params.memSize → memRead m' a 2 = .ok (v + 256 * (m.byteAt (a + 1)).toNat)) ∧
    (1 ≤ a → memRead m' (a - 1) 2 = .ok ((m.byteAt (a - 1)).toNat + 256 * v))) ∧
  (∀ m : Memory, 0x0102 ≤ m.params.memSize → ∃ m', memWrite m 0x0100 2 0x1234 = .ok m' ∧
    m'.byteAt 0x0100 = 0x34 ∧ m'.byteAt 0x0101 = 0x12)

/-- R21, R37: two memories in canonical form with the same parameters and the same bytes are the same memory, so that the state is
its bytes, its run state and its halt record. -/
def Obligations.CanonicalMemoriesAreTheirBytes : Prop :=
  ∀ m m' : Memory, m.wf → m'.wf → m.params = m'.params → (∀ a, m.byteAt a = m'.byteAt a) → m = m'

/-- R24: the IP is bytes 0 and 1, little-endian; a 16-bit write of `v` at address 0 sets it to `v`. -/
def Obligations.IpIsBytesZeroAndOne : Prop :=
  (∀ m : Memory, m.ip.toNat = (m.byteAt 0).toNat + 256 * (m.byteAt 1).toNat) ∧
  (∀ (m m' : Memory) (v : Word), memWrite m 0 2 v.toNat = .ok m' → m'.ip = v)

/-! ### The step -/

/-- R86, R88, R98: when the bytes at the IP decode to `i`, as they do when they are its encoding, a Ready step is `exec i` of the state
before the step: the meaning does the advance, the effect and the commit, and nothing else is around it. -/
def Obligations.StepRunsDecodedInstruction : Prop :=
  (∀ (s : State) (i : Instr) (rest : List Byte), Runnable s →
    decodeAt s.mem s.mem.ip.toNat s.mem.params.memSize = .instr i rest → step s = exec i s) ∧
  (∀ (s : State) (i : Instr), Runnable s → s.mem.ip.toNat + i.width ≤ s.mem.params.memSize →
    s.mem.bytes s.mem.ip.toNat i.width = encode i → step s = exec i s)

/-- R83, R84, R85: the three ways a step fails before the effect, with what the halt record holds. -/
def Obligations.FetchFailures : Prop :=
  ∀ s : State, Runnable s →
    let ip := s.mem.ip.toNat
    (s.mem.params.memSize ≤ ip → step s = .next (haltedBy s (.outOfBounds ip 1))) ∧
    (ip < s.mem.params.memSize → rom (s.mem.byteAt ip) = none →
      step s = .next (haltedBy s (.invalidOpcode (s.mem.byteAt ip)))) ∧
    (∀ shape, ip < s.mem.params.memSize → rom (s.mem.byteAt ip) = some shape →
      s.mem.params.memSize < ip + shape.format.width →
      step s = .next (haltedBy s (.outOfBounds (ip + 1) (shape.format.width - 1))))

/-- R168: a step reports the first failure in the order of the rule, and completes when there is none. The order of an effect's
checks is read off the decode table: field order, a pointer's target after its pointer, value checks last. -/
def Obligations.FailurePriority : Prop :=
  ∀ s : State, Runnable s →
    match stepFailure s with
    | some e => step s = .next (haltedBy s e)
    | none => ∃ t, step s = .next t ∧ t.run = .ready ∧ t.halt = .none

/-- R163: halt entry. A step that halts leaves memory, the IP slot included, as it was, and records the failure and the address of
the failing instruction, and further steps change nothing; a step that does not halt is Ready without a record (R89). -/
def Obligations.HaltEntryCommitsNothing : Prop :=
  ∀ s t : State, s.run = .ready → step s = .next t →
    (t.run = .ready ∧ t.halt = .none) ∨
    (t.run = .halted ∧ t.mem = s.mem ∧ (∃ e, t.halt = .halted e s.mem.ip ∧ e.Truthful s.mem.params) ∧ step t = .next t)

/-- R90: "Step is a total function". With parameters that R8 allows, a step always answers a state: it neither faults nor refuses. -/
def Obligations.StepIsTotal : Prop :=
  ∀ s : State, s.mem.params.Legal → ∃ t, step s = .next t

/-- R94: while Ready, the outcome of a step is a function of the memory alone. -/
def Obligations.StepDependsOnMemoryAlone : Prop :=
  ∀ s t : State, s.run = .ready → t.run = .ready → s.mem = t.mem → step s = step t

/-- R27: Halted absorbs. A step changes nothing and reports the halt record. -/
def Obligations.HaltedAbsorbs : Prop :=
  ∀ s : State, s.run = .halted →
    step s = .next s ∧ transact .step s = (s, .halted s.halt) ∧ ∀ k, run (k + 1) s = .next s

/-- R97: the IP slot cannot be executed, and the first step after a reset halts. -/
def Obligations.IpSlotCannotBeExecuted : Prop :=
  (∀ s : State, Runnable s → (s.mem.ip = 0 ∨ s.mem.ip = 1) → step s = .next (haltedBy s (.invalidOpcode 0x00))) ∧
  (∀ p : Config.Params, p.Legal →
    step (State.construct p) = .next (haltedBy (State.construct p) (.invalidOpcode 0x00)))

/-- R8, R21, R22, R28, R37: every step keeps the invariant of the machine (legal parameters, memory canonical and inside its size,
Ready exactly when there is no halt record, a truthful record) and the parameters. -/
def Obligations.StepKeepsInvariant : Prop :=
  ∀ s t : State, s.Inv → step s = .next t → t.Inv ∧ t.mem.params = s.mem.params

/-- The invariant holds after construction, so after reset. The sizes of `State.reset` are the model's choice (logs 1 and 2). -/
def Obligations.ResetMeetsInvariant : Prop :=
  (∀ p : Config.Params, p.Legal → (State.construct p).Inv) ∧ State.reset.Inv

/-- R15, R46: an instruction writes one location of at most two bytes besides the IP slot, at the address its fields give, and nothing
else; a control transfer and NOP write only the slot. -/
def Obligations.OneWriteFrame : Prop :=
  ∀ (s t : State) (i : Instr), exec i s = .next t →
    t.mem.params = s.mem.params ∧
    (∀ x, 2 ≤ x → storesTo s i = none → t.mem.byteAt x = s.mem.byteAt x) ∧
    (∀ x a n, 2 ≤ x → storesTo s i = some (a, n) → (x < a ∨ a + n ≤ x) → t.mem.byteAt x = s.mem.byteAt x) ∧
    (∀ a n, storesTo s i = some (a, n) → n = 1 ∨ n = 2)

/-- R78: the two pseudo-instructions. A SPIN at `here` is the three bytes `12 lo hi` and a step of it is a fixed point; FAULT is the byte
0x00 and the step that reaches it halts. -/
def Obligations.SpinAndFault : Prop :=
  (∀ here : Word, encode (spin here) = [0x12, loByte here, hiByte here]) ∧
  (∀ s : State, s.Inv → s.run = .ready → s.mem.ip.toNat + 3 ≤ s.mem.params.memSize →
    s.mem.bytes s.mem.ip.toNat 3 = encode (spin s.mem.ip) → step s = .next s) ∧
  faultByte = 0x00 ∧
  (∀ s : State, Runnable s → s.mem.ip.toNat < s.mem.params.memSize → s.mem.byteAt s.mem.ip.toNat = faultByte →
    step s = .next (haltedBy s (.invalidOpcode 0x00)))

/-! ### The instructions -/

/-- R101, R102, R103: ADD, SUB and MUL on bytes, modulo 256. -/
def Obligations.AddSubMulBytes : Prop :=
  BinaryRule .add 0x01 1 (fun x y => (x + y) % 256) ∧
  BinaryRule .sub 0x02 1 (fun x y => (((x : Int) - y) % 256).toNat) ∧
  BinaryRule .mul 0x03 1 (fun x y => (x * y) % 256)

/-- R104: DIV, the unsigned quotient of bytes, and its failure on a zero divisor. -/
def Obligations.DivBytes : Prop := DivRule .div 0x04 1

/-- R105, R106, R107: AND, OR and XOR on bytes. -/
def Obligations.AndOrXorBytes : Prop :=
  BinaryRule .and 0x05 1 (fun x y => x &&& y) ∧
  BinaryRule .or 0x06 1 (fun x y => x ||| y) ∧
  BinaryRule .xor 0x07 1 (fun x y => x ^^^ y)

/-- R108, R109, R110: ADD_W, SUB_W and MUL_W, modulo 65536. -/
def Obligations.AddSubMulWords : Prop :=
  BinaryRule .addW 0x08 2 (fun x y => (x + y) % 65536) ∧
  BinaryRule .subW 0x09 2 (fun x y => (((x : Int) - y) % 65536).toNat) ∧
  BinaryRule .mulW 0x0A 2 (fun x y => (x * y) % 65536)

/-- R111: DIV_W, the unsigned quotient of 16-bit values, and its failure on a zero divisor. -/
def Obligations.DivWords : Prop := DivRule .divW 0x0B 2

/-- R112, R113, R114: AND_W, OR_W and XOR_W. -/
def Obligations.AndOrXorWords : Prop :=
  BinaryRule .andW 0x0C 2 (fun x y => x &&& y) ∧
  BinaryRule .orW 0x0D 2 (fun x y => x ||| y) ∧
  BinaryRule .xorW 0x0E 2 (fun x y => x ^^^ y)

/-- R116: NOT, the complement of a byte. -/
def Obligations.NotByte : Prop :=
  ∀ (s : State) (inp r : Word),
    encode (.not inp r) = bytesF2 0x0F inp r ∧
    (Inside s inp.toNat 1 → Inside s r.toNat 1 →
      ∃ t, exec (.not inp r) s = .next t ∧ Stored s 5 t r.toNat 1 (255 - seen s 5 inp.toNat 1)) ∧
    (¬Inside s inp.toNat 1 → exec (.not inp r) s = .next (haltedBy s (.outOfBounds inp.toNat 1))) ∧
    (Inside s inp.toNat 1 → ¬Inside s r.toNat 1 →
      exec (.not inp r) s = .next (haltedBy s (.outOfBounds r.toNat 1)))

/-- R117, R118, R119: LSHIFT and RSHIFT, logical, by 0 to 8; a larger amount fails. -/
def Obligations.Shifts : Prop :=
  ShiftRule .lshift 0x10 (fun x bits => (x <<< bits) % 256) ∧
  ShiftRule .rshift 0x11 (fun x bits => x >>> bits)

/-- R120: JUMP_V sets the IP to its field and changes no other byte, without checking the target; a target outside memory, or one
in the IP slot, makes the next step fail. -/
def Obligations.JumpImmediate : Prop :=
  ∀ (s : State) (target : Word),
    encode (.jumpV target) = [0x12, loByte target, hiByte target] ∧
    ∃ t, exec (.jumpV target) s = .next t ∧ Jumped s t target ∧
      (s.mem.params.Legal → s.mem.params.memSize ≤ target.toNat →
        step t = .next (haltedBy t (.outOfBounds target.toNat 1))) ∧
      (s.mem.params.Legal → target.toNat < 2 → step t = .next (haltedBy t (.invalidOpcode 0x00)))

/-- R121: JUMP sets the IP to the pointer held at its field. -/
def Obligations.JumpThroughPointer : Prop :=
  ∀ (s : State) (addr : Word),
    encode (.jump addr) = [0x13, loByte addr, hiByte addr] ∧
    (Inside s addr.toNat 2 →
      ∃ t, exec (.jump addr) s = .next t ∧ Jumped s t (BitVec.ofNat 16 (seen s 3 addr.toNat 2))) ∧
    (¬Inside s addr.toNat 2 → exec (.jump addr) s = .next (haltedBy s (.outOfBounds addr.toNat 2)))

/-- R122, R123: CJUMP and CJUMP_W jump exactly when the operands are equal at their width. -/
def Obligations.ConditionalJumps : Prop := CjumpRule .cjump 0x14 1 ∧ CjumpRule .cjumpW 0x15 2

/-- R127, R128, R129: CMP and CMP_W write all ones, 0 or 1 at the operand width for less, equal, greater, unsigned. -/
def Obligations.Comparisons : Prop :=
  BinaryRule .cmp 0x16 1 (fun x y => if x < y then 0xFF else if x = y then 0 else 1) ∧
  BinaryRule .cmpW 0x17 2 (fun x y => if x < y then 0xFFFF else if x = y then 0 else 1)

/-- R130: SET_V stores `value[7:0]` and ignores the rest. -/
def Obligations.SetImmediateByte : Prop := StoreRule .setV 0x18 1 (fun value => value.toNat % 256)

/-- R131: SET_VW stores the whole 16-bit value. -/
def Obligations.SetImmediateWord : Prop := StoreRule .setVW 0x19 2 (fun value => value.toNat)

/-- R132, R133: COPY and COPY_W. -/
def Obligations.Copies : Prop := CopyRule .copy 0x1A 1 ∧ CopyRule .copyW 0x1B 2

/-- R134, R135: GET and GET_W load through a pointer, which they leave as it is. -/
def Obligations.IndirectLoads : Prop := GetRule .get 0x1C 1 ∧ GetRule .getW 0x1D 2

/-- R136, R137: SET and SET_W store through a pointer. -/
def Obligations.IndirectStores : Prop := SetRule .set 0x1E 1 ∧ SetRule .setW 0x1F 2

/-- R139: NOP changes the IP alone, and at the last byte of memory it still succeeds. -/
def Obligations.NopAdvancesOnly : Prop :=
  encode .nop = [0x20] ∧
  (∀ s : State, ∃ t, exec .nop s = .next t ∧ OnlyAdvanced s 1 t) ∧
  (∀ s : State, Runnable s → s.mem.ip.toNat < s.mem.params.memSize → s.mem.byteAt s.mem.ip.toNat = 0x20 →
    ∃ t, step s = .next t ∧ OnlyAdvanced s 1 t) ∧
  (∀ s : State, Runnable s → s.mem.ip.toNat + 1 = s.mem.params.memSize → s.mem.byteAt s.mem.ip.toNat = 0x20 →
    ∃ t, step s = .next t ∧ t.mem.ip.toNat = s.mem.params.memSize % 65536 ∧
      (s.mem.params.memSize < 65536 → step t = .next (haltedBy t (.outOfBounds s.mem.params.memSize 1))) ∧
      (s.mem.params.memSize = 65536 → step t = .next (haltedBy t (.invalidOpcode 0x00))))

/-- R91, R92: the IP slot as a source reads the advanced IP; as a destination it replaces the advanced IP, whole or by halves. -/
def Obligations.IpSlotAsOperand : Prop :=
  (∀ (s : State) (dst : Word), 2 ≤ dst.toNat → Inside s dst.toNat 2 → 2 ≤ s.mem.params.memSize →
    ∃ t, exec (.copyW 0 dst) s = .next t ∧ memRead t.mem dst.toNat 2 = .ok (nextIp s 5).toNat) ∧
  (∀ (s : State) (v : Word), 2 ≤ s.mem.params.memSize →
    ∃ t, exec (.setVW 0 v) s = .next t ∧ t.mem.ip = v) ∧
  (∀ (s : State) (v : Word), 2 ≤ s.mem.params.memSize →
    ∃ t, exec (.setV 0 v) s = .next t ∧ t.mem.ip = fieldOf (loByte v) (hiByte (nextIp s 5))) ∧
  (∀ (s : State) (v : Word), 2 ≤ s.mem.params.memSize →
    ∃ t, exec (.setV 1 v) s = .next t ∧ t.mem.ip = fieldOf (loByte (nextIp s 5)) (loByte v)) ∧
  (∀ (s : State) (v : Word), 3 ≤ s.mem.params.memSize →
    ∃ t, exec (.setVW 1 v) s = .next t ∧ t.mem.ip = fieldOf (loByte (nextIp s 5)) (loByte v) ∧
      t.mem.byteAt 2 = hiByte v)

/-! ### Reset and the host -/

/-- R34, R35, R36: after construction every byte is 0x00, so the IP is 0; a reset that installs an image sets memory to that image
instead; after both the run state is Ready and there is no halt record. -/
def Obligations.ResetValues : Prop :=
  (∀ p : Config.Params, (∀ a, (State.construct p).mem.byteAt a = 0x00) ∧ (State.construct p).mem.ip = 0x0000 ∧
    (State.construct p).run = .ready ∧ (State.construct p).halt = .none) ∧
  (∀ (s : State) (image : List Byte), image.length = s.mem.params.memSize →
    (transact (.reset image) s).1.mem.image = image ∧ (transact (.reset image) s).1.run = .ready ∧
    (transact (.reset image) s).1.halt = .none)

/-- R181: `Reset(image)` installs the image, Ready, without a halt record; its result does not depend on the state before it; it leaves
Halted, and no other transaction does. Construction is the reset with the all-zero image. -/
def Obligations.ResetInstallsImage : Prop :=
  (∀ (s : State) (image : List Byte), image.length = s.mem.params.memSize →
    ∃ t, transact (.reset image) s = (t, .none) ∧ t.run = .ready ∧ t.halt = .none ∧ t.mem.params = s.mem.params ∧
      (∀ a, a < image.length → t.mem.bytes a 1 = (image.drop a).take 1) ∧
      ∀ s' : State, s'.mem.params = s.mem.params → transact (.reset image) s' = (t, .none)) ∧
  (∀ s : State, transact (.reset (zeroImage s.mem.params)) s = (State.construct s.mem.params, .none)) ∧
  (∀ (s : State) (tr : Transaction), s.run = .halted → (transact tr s).1.run = .ready → ∃ image, tr = .reset image)

/-- R185: `Reset(snapshot.mem)` restores a Ready snapshot exactly, from any state of a machine of that size. -/
def Obligations.SnapshotRestores : Prop :=
  ∀ s u : State, s.Inv → s.run = .ready → u.mem.params = s.mem.params →
    transact (.reset s.mem.image) u = (s, .none)

/-- R170: a reset with the memory image taken just before a failing step repeats the same failure at the first step. -/
def Obligations.ResetRepeatsFailure : Prop :=
  ∀ s t : State, s.Inv → s.run = .ready → step s = .next t → t.run = .halted →
    ∃ u, transact (.reset s.mem.image) t = (u, .none) ∧ u.run = .ready ∧ step u = .next t

/-- R183, R184: a program written by the host is what the next step runs: after HostWrite of an instruction's bytes at `place` and of
`place` into the IP slot, the step is that instruction's. -/
def Obligations.LoadedInstructionRuns : Prop :=
  ∀ (s : State) (i : Instr) (place : Word), Runnable s → 2 ≤ place.toNat →
    place.toNat + i.width ≤ s.mem.params.memSize →
    ∃ u v, transact (.hostWrite place.toNat (encode i)) s = (u, .ok) ∧
      transact (.hostWrite 0 [loByte place, hiByte place]) u = (v, .ok) ∧
      v.mem.ip = place ∧ step v = exec i v

/-- R171, R183: HostWrite stores the bytes and nothing else and leaves the run state and halt record alone; a HostRead of them returns
them; out of bounds, neither changes anything. -/
def Obligations.HostWriteThenRead : Prop :=
  ∀ (s : State) (a : Nat) (bs : List Byte),
    (a + bs.length ≤ s.mem.params.memSize →
      ∃ t, transact (.hostWrite a bs) s = (t, .ok) ∧ t.run = s.run ∧ t.halt = s.halt ∧
        transact (.hostRead a bs.length) t = (t, .bytes bs) ∧
        ∀ x, (x < a ∨ a + bs.length ≤ x) → t.mem.byteAt x = s.mem.byteAt x) ∧
    (s.mem.params.memSize < a + bs.length →
      transact (.hostWrite a bs) s = (s, .outOfBounds a bs.length) ∧
      transact (.hostRead a bs.length) s = (s, .outOfBounds a bs.length))

/-- R37, R171: every transaction of the host keeps the invariant and the parameters. -/
def Obligations.TransactionsKeepInvariant : Prop :=
  ∀ (s : State) (tr : Transaction), s.Inv →
    (transact tr s).1.Inv ∧ (transact tr s).1.mem.params = s.mem.params

/-! ### The disassembler -/

/-- R140: the disassembler's transactions change neither memory, nor the run state, nor the halt record, and what they answer is a
function of memory: lines and a status. -/
def Obligations.DisassemblerChangesNothing : Prop :=
  ∀ (s : State) (c : Word) (limit start stop : Nat),
    (transact (.formatAt c limit) s).1 = s ∧ (transact (.disassemble start stop) s).1 = s ∧
    (∃ lines status, (transact (.disassemble start stop) s).2 = .listing lines status) ∧
    ∀ s' : State, s'.mem = s.mem →
      (transact (.formatAt c limit) s').2 = (transact (.formatAt c limit) s).2 ∧
      (transact (.disassemble start stop) s').2 = (transact (.disassemble start stop) s).2

/-- R147, R148: the walk. A range past memory gives no line, an empty range gives no line, and otherwise the first line is the one at
`start`, followed by the walk from the next address. -/
def Obligations.WalkUnrolls : Prop :=
  ∀ (m : Memory) (start stop : Nat),
    (m.params.memSize < stop → disassemble m start stop = ([], .rangeOutOfBounds stop)) ∧
    (stop ≤ m.params.memSize → stop ≤ start → disassemble m start stop = ([], .complete)) ∧
    (stop ≤ m.params.memSize → start < stop →
      disassemble m start stop =
        match formatAt m start stop with
        | .stop text status => ([text], status)
        | .line text w =>
          (text :: (disassemble m (start + w) stop).1, (disassemble m (start + w) stop).2))

/-- R148, R149, R151: a walk is `Complete` exactly when the range is the encodings of a sequence of instructions, and its lines are then
theirs at the boundaries their widths give; `OutOfRange` never ends a walk. -/
def Obligations.CompleteWalks : Prop :=
  ∀ (m : Memory) (start stop : Nat), start ≤ stop → stop ≤ m.params.memSize →
    (∀ c, (disassemble m start stop).2 ≠ .outOfRange c) ∧
    ((disassemble m start stop).2 = .complete ↔ ∃ is : List Instr, m.bytes start (stop - start) = is.flatMap encode) ∧
    (∀ is : List Instr, m.bytes start (stop - start) = is.flatMap encode →
      (disassemble m start stop).1 = sweepLines start is)

/-- R152: the walk depends only on the bytes in `[start, stop)` and on `MEM_SIZE`: it never reads past the end. -/
def Obligations.WalkReadsOnlyItsRange : Prop :=
  ∀ (m m' : Memory) (start stop : Nat), m.params.memSize = m'.params.memSize →
    (∀ a, start ≤ a → a < stop → m.byteAt a = m'.byteAt a) → disassemble m start stop = disassemble m' start stop

/-- R99, R153: the trace line names what the step will do: the line of the instruction it will run, or the reason it will fail at
fetch or decode. -/
def Obligations.TraceLineNamesTheStep : Prop :=
  ∀ s : State, Runnable s →
    (∃ i, traceLine s.mem = .line (render s.mem.ip.toNat i) i.width ∧ step s = exec i s) ∨
    (traceLine s.mem = .stop (hex4 s.mem.ip.toNat ++ ": out of range") (.outOfRange s.mem.ip.toNat) ∧
      step s = .next (haltedBy s (.outOfBounds s.mem.ip.toNat 1))) ∨
    (∃ tag, traceLine s.mem =
        .stop (hex4 s.mem.ip.toNat ++ ": unrecognised code " ++ hex2 tag) (.unrecognised s.mem.ip.toNat tag) ∧
      step s = .next (haltedBy s (.invalidOpcode tag))) ∨
    (∃ tag shape, rom tag = some shape ∧ traceLine s.mem =
        .stop (hex4 s.mem.ip.toNat ++ ": truncated code " ++ hex2 tag) (.truncated s.mem.ip.toNat tag) ∧
      step s = .next (haltedBy s (.outOfBounds (s.mem.ip.toNat + 1) (shape.format.width - 1))))

/-- R155, R156, R157: the rendered lines and walks of the spec's own example bytes. -/
def Obligations.DisassemblyExamples : Prop :=
  let m : Memory := (Memory.ofImage Config.defaultParams
    [0x02, 0x00, 0x18, 0x00, 0x01, 0x2A, 0x00, 0x12, 0x10, 0x00, 0x20])
  disassemble m 0x0002 0x000C =
    (["0x0002: SET_V addr=0x0100 value=0x002A", "0x0007: JUMP_V addr=0x0010", "0x000A: NOP",
      "0x000B: unrecognised code 0x00"], .unrecognised 0x000B 0x00) ∧
  disassemble m 0x0002 0x0005 = (["0x0002: truncated code 0x18"], .truncated 0x0002 0x18) ∧
  disassemble m 0x0002 0x0007 = (["0x0002: SET_V addr=0x0100 value=0x002A"], .complete)

/-- R142, R143, R144: every line the formatter writes. The rows are R66's for every opcode, so the encoding, the mnemonic and the field
names are fixed together; an instruction that lies below the limit gives its line and width, and the three stops give theirs,
at every address below 65536. -/
def Obligations.FormattedLines : Prop :=
  (∀ i : Instr, encode i = (tableRow i).1 :: (tableRow i).2.2.flatMap fun f => [loByte f.2, hiByte f.2]) ∧
  (∀ v, v < 65536 → hex4 v = fourDigits v) ∧
  (∀ b : Byte, hex2 b = twoDigits b.toNat) ∧
  (∀ (c : Nat) (i : Instr), c < 65536 → render c i = lineOf c i) ∧
  (∀ (m : Memory) (c limit : Nat), c < 65536 →
    (∀ i : Instr, c + (encode i).length ≤ limit → m.bytes c (encode i).length = encode i →
      formatAt m c limit = .line (lineOf c i) (encode i).length) ∧
    (limit ≤ c → formatAt m c limit = .stop (fourDigits c ++ ": out of range") (.outOfRange c)) ∧
    (c < limit → (m.byteAt c = 0x00 ∨ 0x21 ≤ (m.byteAt c).toNat) →
      formatAt m c limit = .stop (fourDigits c ++ ": unrecognised code " ++ twoDigits (m.byteAt c).toNat)
        (.unrecognised c (m.byteAt c))) ∧
    (∀ i : Instr, c < limit → m.byteAt c = (tableRow i).1 → limit < c + (encode i).length →
      formatAt m c limit = .stop (fourDigits c ++ ": truncated code " ++ twoDigits (m.byteAt c).toNat)
        (.truncated c (m.byteAt c))))

/-! ### What the host is told -/

/-- R80, R90, R171: the Step transaction makes the step and answers `Stepped` when it ends Ready and `Halted` with the record when it
ends Halted. With parameters that R8 allows, one of the two happens from every state. -/
def Obligations.StepTransactionReports : Prop :=
  (∀ s t : State, step s = .next t →
    (t.run = .ready → transact .step s = (t, .stepped)) ∧
    (t.run = .halted → transact .step s = (t, .halted t.halt))) ∧
  (∀ s : State, s.mem.params.Legal → ∃ t, step s = .next t ∧
    ((t.run = .ready ∧ transact .step s = (t, .stepped)) ∨ (t.run = .halted ∧ transact .step s = (t, .halted t.halt))))

/-- R162, R171: Status answers the run state and the halt record and changes nothing; the cause codes are 0 for no record, which is
Ready, and 1 to 4 for the four failures. -/
def Obligations.StatusAndCauseCodes : Prop :=
  (∀ s : State, transact .status s = (s, .status s.run s.halt)) ∧
  HaltRecord.none.code = 0 ∧
  (∀ addr n ip, (HaltRecord.halted (.outOfBounds addr n) ip).code = 1) ∧
  (∀ tag ip, (HaltRecord.halted (.invalidOpcode tag) ip).code = 2) ∧
  (∀ ip, (HaltRecord.halted .divisionByZero ip).code = 3) ∧
  (∀ bits ip, (HaltRecord.halted (.invalidShiftAmount bits) ip).code = 4) ∧
  (∀ s : State, s.Inv → (s.halt.code = 0 ↔ s.run = .ready))

/-- R93, R153: a run applies Step until its count is used up or a step returns Halted, and its trace has one line per step, taken
before it while Ready. Runs and traces in two parts are the whole ones. -/
def Obligations.RunsAndTraces : Prop :=
  (∀ s : State, run 0 s = .next s ∧ trace 0 s = []) ∧
  (∀ (s t : State) (k : Nat), transact .step s = (t, .stepped) →
    run (k + 1) s = run k t ∧ trace (k + 1) s = (traceLine s.mem).text :: trace k t) ∧
  (∀ (s t : State) (r : HaltRecord) (k : Nat), transact .step s = (t, .halted r) →
    run (k + 1) s = .next t ∧ trace (k + 1) s = if s.run = .ready then [(traceLine s.mem).text] else []) ∧
  (∀ (s t : State) (j k : Nat), run j s = .next t →
    run (j + k) s = run k t ∧ trace (j + k) s = trace j s ++ trace k t)
end

