-- ==== Sys2Proof/Laws/Decode.lean ====
section
/-! SUPPORT. Small lemmas of the decoder and the encoder. -/

namespace Sys2Proof

/-- Splitting a word into its bytes and putting them together gives the word back (R62). -/
@[simp] theorem fieldOf_bytes (w : Word) : fieldOf (loByte w) (hiByte w) = w := by
  unfold fieldOf loByte hiByte
  ext i hi
  simp only [BitVec.getElem_append, BitVec.getElem_extractLsb']
  split
  · simp [BitVec.getLsbD_eq_getElem hi]
  · next h => simp [show 8 + (i - 8) = i by omega, BitVec.getLsbD_eq_getElem hi]

/-- A field is the little-endian number at its offsets (R62). -/
theorem fieldOf_toNat (lo hi : Byte) : (fieldOf lo hi).toNat = lo.toNat + 256 * hi.toNat := by
  have := lo.isLt
  rw [fieldOf, BitVec.toNat_append, ← Nat.shiftLeft_add_eq_or_of_lt (by simpa using this), Nat.shiftLeft_eq]
  omega

@[simp] theorem loByte_fieldOf (lo hi : Byte) : loByte (fieldOf lo hi) = lo := by
  apply BitVec.eq_of_toNat_eq
  have := lo.isLt
  rw [loByte, BitVec.extractLsb'_toNat, fieldOf_toNat, Nat.shiftRight_zero]
  omega

@[simp] theorem hiByte_fieldOf (lo hi : Byte) : hiByte (fieldOf lo hi) = hi := by
  apply BitVec.eq_of_toNat_eq
  have := lo.isLt
  have := hi.isLt
  rw [hiByte, BitVec.extractLsb'_toNat, fieldOf_toNat, Nat.shiftRight_eq_div_pow]
  omega

/-- A record splits only when all its bytes are there, and then it takes exactly them (R71). -/
theorem Shape.readRecord_length {sh : Shape} {bs rest : List Byte} {i : Instr}
    (h : sh.readRecord bs = some (i, rest)) : bs.length + 1 = sh.format.width + rest.length := by
  unfold Shape.readRecord at h
  split at h <;> simp_all [Shape.format, Format.width, Format.fieldCount] <;> omega

end Sys2Proof
end

