-- ==== Sys2Proof/Laws/State.lean ====
section
/-! SUPPORT. One lemma per field per update of the state and of memory's record, true by `rfl`, so that no later proof unfolds
an update. -/

namespace Sys2Proof.Machine

@[simp] theorem State.takeFailure_mem (s : State) (e : Failure) : (s.takeFailure e).mem = s.mem := rfl
@[simp] theorem State.takeFailure_run (s : State) (e : Failure) : (s.takeFailure e).run = .halted := rfl
@[simp] theorem State.takeFailure_halt (s : State) (e : Failure) :
    (s.takeFailure e).halt = .halted e s.mem.ip := rfl
@[simp] theorem State.committed_mem (m : Memory) : (State.committed m).mem = m := rfl
@[simp] theorem State.committed_run (m : Memory) : (State.committed m).run = .ready := rfl
@[simp] theorem State.committed_halt (m : Memory) : (State.committed m).halt = .none := rfl
@[simp] theorem State.construct_mem (p : Config.Params) : (State.construct p).mem = ⟨p, []⟩ := rfl
@[simp] theorem State.construct_run (p : Config.Params) : (State.construct p).run = .ready := rfl
@[simp] theorem State.construct_halt (p : Config.Params) : (State.construct p).halt = .none := rfl
@[simp] theorem State.reset_mem : State.reset.mem = ⟨Config.defaultParams, []⟩ := rfl
@[simp] theorem State.reset_run : State.reset.run = .ready := rfl
@[simp] theorem State.reset_halt : State.reset.halt = .none := rfl
@[simp] theorem Memory.put_params (m : Memory) (a : Nat) (b : Byte) : (m.put a b).params = m.params := rfl
@[simp] theorem Memory.put_cells (m : Memory) (a : Nat) (b : Byte) :
    (m.put a b).cells = putCell a b m.cells := rfl

@[simp] theorem Memory.storeBytes_params (bs : List Byte) :
    ∀ (m : Memory) (a : Nat), (m.storeBytes a bs).params = m.params := by
  induction bs with
  | nil => intro m a; rfl
  | cons b rest ih => intro m a; exact (ih _ _).trans rfl

@[simp] theorem Memory.storeValue_params (m : Memory) (a n v : Nat) : (m.storeValue a n v).params = m.params :=
  Memory.storeBytes_params _ _ _

@[simp] theorem Memory.setIp_params (m : Memory) (w : Word) : (m.setIp w).params = m.params :=
  Memory.storeValue_params _ _ _ _

@[simp] theorem Memory.advance_params (m : Memory) (f : Format) : (m.advance f).params = m.params :=
  Memory.setIp_params _ _

end Sys2Proof.Machine
end

