-- ==== Sys2Proof/Laws/Memory.lean ====
section
/-! SUPPORT. The laws of memory: a byte read after a byte written, byte strings and their values, and the canonical form. -/

namespace Sys2Proof.Machine

/-! ### One byte -/

theorem cellAt_filter_ne {a x : Nat} (h : x ≠ a) (cs : List Host.Cell) :
    cellAt x (cs.filter fun c => c.1 ≠ a) = cellAt x cs := by
  induction cs with
  | nil => rfl
  | cons c rest ih =>
    by_cases hc : c.1 = a
    · have hx : c.1 ≠ x := fun e => h (e.symm.trans hc)
      rw [List.filter_cons_of_neg (by simpa using hc), ih, cellAt, if_neg hx]
    · rw [List.filter_cons_of_pos (by simpa using hc), cellAt, cellAt, ih]

theorem cellAt_of_not_listed {x : Nat} {cs : List Host.Cell} (h : ∀ c ∈ cs, c.1 ≠ x) : cellAt x cs = blankByte := by
  induction cs with
  | nil => rfl
  | cons c rest ih =>
    rw [cellAt, if_neg (h c (by simp))]
    exact ih fun d hd => h d (by simp [hd])

theorem cellAt_insertCell (c : Host.Cell) {cs : List Host.Cell} (h : ∀ d ∈ cs, d.1 ≠ c.1) (x : Nat) :
    cellAt x (insertCell c cs) = if c.1 = x then c.2 else cellAt x cs := by
  induction cs with
  | nil => rfl
  | cons d rest ih =>
    have ih := ih fun e he => h e (by simp [he])
    rw [insertCell]
    split
    · rfl
    · rw [cellAt, ih, cellAt]
      have hd := h d (by simp)
      by_cases h1 : d.1 = x
      · rw [if_pos h1, if_pos h1, if_neg fun e => hd (h1.trans e.symm)]
      · rw [if_neg h1, if_neg h1]

theorem cellAt_putCell (a x : Nat) (b : Byte) (cs : List Host.Cell) :
    cellAt x (putCell a b cs) = if x = a then b else cellAt x cs := by
  have none_left : ∀ c ∈ cs.filter (fun c => c.1 ≠ a), c.1 ≠ a := fun c hc => by
    simpa using (List.mem_filter.mp hc).2
  unfold putCell
  by_cases hx : x = a
  · subst hx
    by_cases hb : b = blankByte
    · simpa [hb] using cellAt_of_not_listed none_left
    · simp only [if_neg hb]
      rw [cellAt_insertCell _ none_left]
      simp
  · by_cases hb : b = blankByte
    · simp only [if_pos hb, if_neg hx]
      exact cellAt_filter_ne hx cs
    · simp only [if_neg hb, if_neg hx]
      rw [cellAt_insertCell _ none_left, if_neg (Ne.symm hx)]
      exact cellAt_filter_ne hx cs

/-- A byte read after a byte written: the written byte at its address, every other address as before. -/
theorem Memory.byteAt_put (m : Memory) (a x : Nat) (b : Byte) :
    (m.put a b).byteAt x = if x = a then b else m.byteAt x :=
  cellAt_putCell a x b m.cells

/-! ### Byte strings -/

@[simp] theorem leBytes_length (n : Nat) : ∀ v, (leBytes n v).length = n := by
  induction n with
  | zero => intro v; rfl
  | succ n ih => intro v; simp [leBytes, ih]

theorem leBytes_getD (n : Nat) : ∀ (v i : Nat), i < n → (leBytes n v).getD i 0 = BitVec.ofNat 8 (v / 256 ^ i) := by
  induction n with
  | zero => intro v i h; omega
  | succ n ih =>
    intro v i h
    cases i with
    | zero => simp [leBytes]
    | succ i =>
      rw [leBytes, List.getD_cons_succ, ih _ _ (by omega), Nat.div_div_eq_div_mul, pow_succ']

@[simp] theorem Memory.bytes_length (m : Memory) (n : Nat) : ∀ a, (m.bytes a n).length = n := by
  induction n with
  | zero => intro a; rfl
  | succ n ih => intro a; simp [Memory.bytes, ih]

theorem Memory.bytes_congr {m m' : Memory} (n : Nat) :
    ∀ a, (∀ x, a ≤ x → x < a + n → m.byteAt x = m'.byteAt x) → m.bytes a n = m'.bytes a n := by
  induction n with
  | zero => intro a _; rfl
  | succ n ih =>
    intro a h
    rw [Memory.bytes, Memory.bytes, h a (by omega) (by omega), ih _ fun x h1 h2 => h x (by omega) (by omega)]

theorem leValue_lt (bs : List Byte) : leValue bs < 256 ^ bs.length := by
  induction bs with
  | nil => simp [leValue]
  | cons b rest ih =>
    have := b.isLt
    simp only [leValue, List.length_cons, pow_succ']
    omega

theorem leValue_leBytes (n : Nat) : ∀ v, leValue (leBytes n v) = v % 256 ^ n := by
  induction n with
  | zero => intro v; simp [leBytes, leValue, Nat.mod_one]
  | succ n ih =>
    intro v
    rw [leBytes, leValue, ih, pow_succ', Nat.mod_mul]
    simp

/-- What storing a byte string does to every address. -/
theorem Memory.byteAt_storeBytes (bs : List Byte) : ∀ (m : Memory) (a x : Nat),
    (m.storeBytes a bs).byteAt x = if a ≤ x ∧ x < a + bs.length then bs.getD (x - a) 0 else m.byteAt x := by
  induction bs with
  | nil =>
    intro m a x
    rw [Memory.storeBytes, if_neg (by simp)]
  | cons b rest ih =>
    intro m a x
    rw [Memory.storeBytes, ih, Memory.byteAt_put]
    rcases Nat.lt_trichotomy x a with h | h | h
    · rw [if_neg (by omega), if_neg (by omega), if_neg (by omega)]
    · subst h
      rw [if_neg (by omega), if_pos rfl, if_pos (by simp)]
      simp
    · obtain ⟨k, rfl⟩ : ∃ k, x = a + 1 + k := ⟨x - (a + 1), by omega⟩
      have e : a + 1 + k - a = k + 1 := by omega
      rw [e, List.getD_cons_succ, show a + 1 + k - (a + 1) = k by omega]
      by_cases hl : k < rest.length
      · rw [if_pos (by omega), if_pos (by simp only [List.length_cons]; omega)]
      · rw [if_neg (by omega), if_neg (by omega), if_neg (by simp only [List.length_cons]; omega)]

/-- What `MemWrite` does to every address (R40). -/
theorem Memory.byteAt_storeValue (m : Memory) (a n v x : Nat) :
    (m.storeValue a n v).byteAt x =
      if a ≤ x ∧ x < a + n then BitVec.ofNat 8 (v / 256 ^ (x - a)) else m.byteAt x := by
  rw [Memory.storeValue, Memory.byteAt_storeBytes, leBytes_length]
  split
  · exact leBytes_getD n v _ (by omega)
  · rfl

theorem Memory.valueAt_lt (m : Memory) (a n : Nat) : m.valueAt a n < 256 ^ n := by
  simpa [Memory.valueAt] using leValue_lt (m.bytes a n)

theorem Memory.valueAt_congr {m m' : Memory} {a n : Nat}
    (h : ∀ x, a ≤ x → x < a + n → m.byteAt x = m'.byteAt x) : m.valueAt a n = m'.valueAt a n := by
  rw [Memory.valueAt, Memory.valueAt, Memory.bytes_congr n a h]

/-! ### The canonical form -/

/-- A cell list in canonical form within `size` bytes: what `Memory.wf` says of a memory's cells. -/
def Canonical (size : Nat) (cs : List Host.Cell) : Prop :=
  cs.Pairwise (fun c d => c.1 < d.1) ∧ ∀ c ∈ cs, c.2 ≠ 0 ∧ c.1 < size

theorem mem_insertCell {c d : Host.Cell} {cs : List Host.Cell} : d ∈ insertCell c cs ↔ d = c ∨ d ∈ cs := by
  induction cs with
  | nil => simp [insertCell]
  | cons e rest ih =>
    rw [insertCell]
    split
    · simp
    · simp only [List.mem_cons, ih]; tauto

theorem insertCell_rising {c : Host.Cell} {cs : List Host.Cell} (hs : cs.Pairwise (fun c d => c.1 < d.1))
    (h : ∀ d ∈ cs, d.1 ≠ c.1) : (insertCell c cs).Pairwise (fun c d => c.1 < d.1) := by
  induction cs with
  | nil => simp [insertCell]
  | cons e rest ih =>
    rw [List.pairwise_cons] at hs
    rw [insertCell]
    split
    next hlt =>
      refine List.pairwise_cons.mpr ⟨fun d hd => ?_, List.pairwise_cons.mpr hs⟩
      rcases List.mem_cons.mp hd with rfl | hd
      · exact hlt
      · exact hlt.trans (hs.1 d hd)
    next hge =>
      refine List.pairwise_cons.mpr ⟨fun d hd => ?_, ih hs.2 fun d hd => h d (by simp [hd])⟩
      rcases mem_insertCell.mp hd with rfl | hd
      · have := h e (by simp); omega
      · exact hs.1 d hd

theorem Canonical.putCell {size a : Nat} {cs : List Host.Cell} (h : Canonical size cs) (ha : a < size) (b : Byte) :
    Canonical size (putCell a b cs) := by
  have others_rise : (cs.filter fun c => c.1 ≠ a).Pairwise (fun c d => c.1 < d.1) := h.1.filter _
  have others_in : ∀ c ∈ cs.filter (fun c => c.1 ≠ a), c.2 ≠ 0 ∧ c.1 < size := fun c hc =>
    h.2 c (List.mem_filter.mp hc).1
  unfold Machine.putCell
  by_cases hb : b = blankByte
  · simp only [if_pos hb]
    exact ⟨others_rise, others_in⟩
  · simp only [if_neg hb]
    refine ⟨insertCell_rising others_rise fun d hd => by simpa using (List.mem_filter.mp hd).2, fun c hc => ?_⟩
    rcases mem_insertCell.mp hc with rfl | hc
    · exact ⟨hb, ha⟩
    · exact others_in c hc

theorem Memory.wf_put {m : Memory} (h : m.wf) {a : Nat} (ha : a < m.size) (b : Byte) : (m.put a b).wf :=
  Canonical.putCell h ha b

/-- Every store within memory keeps the canonical form. -/
theorem Memory.wf_storeBytes (bs : List Byte) :
    ∀ {m : Memory} {a : Nat}, m.wf → a + bs.length ≤ m.size → (m.storeBytes a bs).wf := by
  induction bs with
  | nil => intro m a h _; exact h
  | cons b rest ih =>
    intro m a h ha
    simp only [List.length_cons] at ha
    exact ih (Memory.wf_put h (by omega) b) (by simp only [Memory.size, Memory.put_params] at ha ⊢; omega)

theorem Memory.wf_storeValue {m : Memory} (h : m.wf) {a n : Nat} (ha : a + n ≤ m.size) (v : Nat) :
    (m.storeValue a n v).wf :=
  Memory.wf_storeBytes _ h (by simpa using ha)

/-- Writing the IP slot keeps the canonical form: the slot exists, since `MEM_SIZE >= 2` (R82). -/
theorem Memory.wf_setIp {m : Memory} (h : m.wf) (hs : 2 ≤ m.size) (w : Word) : (m.setIp w).wf :=
  Memory.wf_storeValue h (by simpa using hs) _

theorem Memory.wf_advance {m : Memory} (h : m.wf) (hs : 2 ≤ m.size) (f : Format) : (m.advance f).wf :=
  Memory.wf_setIp h hs _

theorem State.construct_wf (p : Config.Params) : (State.construct p).mem.wf :=
  ⟨List.Pairwise.nil, by simp⟩

theorem State.reset_wf : State.reset.mem.wf := State.construct_wf _

end Sys2Proof.Machine
end

