-- ==== Sys2Proof/Laws/Ops.lean ====
section
/-! SUPPORT. What each shared operation can do, said once: the access primitives, the instruction pointer, the commit, the
operand forms and the common effects of the families. -/

namespace Sys2Proof.Machine

/-! ### Access primitives -/

theorem memRead_inside {m : Memory} {a n : Nat} (h : a + n ≤ m.size) : memRead m a n = .ok (m.valueAt a n) :=
  if_neg (by omega)

theorem memRead_outside {m : Memory} {a n : Nat} (h : m.size < a + n) : memRead m a n = .error (.outOfBounds a n) :=
  if_pos h

theorem memWrite_inside {m : Memory} {a n : Nat} (h : a + n ≤ m.size) (v : Nat) :
    memWrite m a n v = .ok (m.storeValue a n v) :=
  if_neg (by omega)

theorem memWrite_outside {m : Memory} {a n : Nat} (h : m.size < a + n) (v : Nat) :
    memWrite m a n v = .error (.outOfBounds a n) :=
  if_pos h

/-- A write that succeeds stored the value, inside memory. -/
theorem memWrite_ok {m m' : Memory} {a n v : Nat} (h : memWrite m a n v = .ok m') :
    a + n ≤ m.size ∧ m' = m.storeValue a n v := by
  unfold memWrite at h
  split at h
  · cases h
  · exact ⟨by omega, (Except.ok.inj h).symm⟩

/-- The operations that write memory keep the canonical form. -/
theorem memWrite_wf {m m' : Memory} {a n v : Nat} (hm : m.wf) (h : memWrite m a n v = .ok m') : m'.wf := by
  obtain ⟨ha, rfl⟩ := memWrite_ok h
  exact Memory.wf_storeValue hm ha v

/-! ### The instruction pointer -/

/-- `IP = mem8[0] + 256 * mem8[1]`, as an integer (R24). -/
theorem Memory.ip_toNat (m : Memory) : m.ip.toNat = m.valueAt 0 2 := by
  have := m.valueAt_lt 0 2
  simp only [Memory.ip, Config.ipAddr, Config.ptrBytes, BitVec.toNat_ofNat]
  omega

/-- The IP after it is written. -/
@[simp] theorem Memory.setIp_ip (m : Memory) (w : Word) : (m.setIp w).ip = w := by
  have h : (m.setIp w).bytes 0 2 = leBytes 2 w.toNat := by
    simp [Memory.bytes, leBytes, Memory.setIp, Memory.byteAt_storeValue]
  apply BitVec.eq_of_toNat_eq
  have := w.isLt
  rw [Memory.ip_toNat, Memory.valueAt, h, leValue_leBytes]
  omega

/-- What writing the IP does to every address. -/
theorem Memory.byteAt_setIp (m : Memory) (w : Word) (x : Nat) :
    (m.setIp w).byteAt x = if x = 0 then loByte w else if x = 1 then hiByte w else m.byteAt x := by
  rw [Memory.setIp, Memory.byteAt_storeValue]
  have hl : BitVec.ofNat 8 w.toNat = loByte w := by
    apply BitVec.eq_of_toNat_eq
    simp [loByte, BitVec.extractLsb'_toNat]
  have hh : BitVec.ofNat 8 (w.toNat / 256) = hiByte w := by
    apply BitVec.eq_of_toNat_eq
    simp [hiByte, BitVec.extractLsb'_toNat, Nat.shiftRight_eq_div_pow]
  by_cases h0 : x = 0
  · subst h0; simpa using hl
  · by_cases h1 : x = 1
    · subst h1; simpa using hh
    · rw [if_neg (by simp only [Config.ipAddr, Config.ptrBytes]; omega), if_neg h0, if_neg h1]

/-- The memory an effect works on (R87): the bytes of the advanced IP in the slot, every other byte as before. -/
theorem Memory.byteAt_advance (m : Memory) (f : Format) (x : Nat) :
    (m.advance f).byteAt x =
      if x = 0 then loByte (m.ip + BitVec.ofNat 16 f.width)
      else if x = 1 then hiByte (m.ip + BitVec.ofNat 16 f.width) else m.byteAt x :=
  Memory.byteAt_setIp _ _ _

@[simp] theorem Memory.advance_ip (m : Memory) (f : Format) : (m.advance f).ip = m.ip + BitVec.ofNat 16 f.width :=
  Memory.setIp_ip _ _

/-! ### The commit -/

/-- All that phases 4 and 5 can do: commit what the effect made of the advanced memory, or halt with nothing committed (R89). -/
theorem State.runEffect_cases {s t : State} {f : Format} {e : Memory → Except Failure Memory}
    (h : s.runEffect f e = .next t) :
    (∃ m, e (s.mem.advance f) = .ok m ∧ t = State.committed m) ∨
      ∃ c, e (s.mem.advance f) = .error c ∧ t = s.takeFailure c := by
  unfold State.runEffect at h
  split at h
  next m hm => exact .inl ⟨m, hm, (Host.Outcome.next.inj h).symm⟩
  next c hc => exact .inr ⟨c, hc, (Host.Outcome.next.inj h).symm⟩

theorem State.runEffect_ok {s : State} {f : Format} {e : Memory → Except Failure Memory} {m : Memory}
    (h : e (s.mem.advance f) = .ok m) : s.runEffect f e = .next (State.committed m) := by
  rw [State.runEffect, h]

theorem State.runEffect_error {s : State} {f : Format} {e : Memory → Except Failure Memory} {c : Failure}
    (h : e (s.mem.advance f) = .error c) : s.runEffect f e = .next (s.takeFailure c) := by
  rw [State.runEffect, h]

/-! ### Operand forms and common effects

Each is one chain of conditions: the checks in the order of the rule, then the one write. -/

theorem readDirect_eq (m : Memory) (n : Nat) (a : Word) :
    readDirect m n a =
      if m.size < a.toNat + n then .error (.outOfBounds a.toNat n) else .ok (m.valueAt a.toNat n) := rfl

theorem readPointer_eq (m : Memory) (a : Word) :
    readPointer m a = if m.size < a.toNat + 2 then .error (.outOfBounds a.toNat 2)
      else .ok (BitVec.ofNat 16 (m.valueAt a.toNat 2)) := by
  unfold readPointer memRead
  simp only [Config.ptrBytes, gt_iff_lt]
  split <;> rfl

theorem checkDirect_eq (m : Memory) (n : Nat) (a : Word) :
    checkDirect m n a = if m.size < a.toNat + n then .error (.outOfBounds a.toNat n) else .ok () := rfl

theorem writeDirect_eq (m : Memory) (n : Nat) (a : Word) (v : Nat) :
    writeDirect m n a v =
      if m.size < a.toNat + n then .error (.outOfBounds a.toNat n) else .ok (m.storeValue a.toNat n v) := rfl

theorem binOp_eq (n : Nat) (f : Nat → Nat → Int) (a b r : Word) (m : Memory) :
    binOp n f a b r m =
      if m.size < a.toNat + n then .error (.outOfBounds a.toNat n)
      else if m.size < b.toNat + n then .error (.outOfBounds b.toNat n)
      else if m.size < r.toNat + n then .error (.outOfBounds r.toNat n)
      else .ok (m.storeValue r.toNat n (narrow n (f (m.valueAt a.toNat n) (m.valueAt b.toNat n)))) := by
  simp only [binOp, readDirect_eq, checkDirect_eq, writeDirect_eq]
  by_cases ha : m.size < a.toNat + n <;> by_cases hb : m.size < b.toNat + n <;>
    by_cases hr : m.size < r.toNat + n <;> simp only [ha, hb, hr, if_true, if_false] <;> rfl

theorem divOp_eq (n : Nat) (a b r : Word) (m : Memory) :
    divOp n a b r m =
      if m.size < a.toNat + n then .error (.outOfBounds a.toNat n)
      else if m.size < b.toNat + n then .error (.outOfBounds b.toNat n)
      else if m.size < r.toNat + n then .error (.outOfBounds r.toNat n)
      else if m.valueAt b.toNat n = 0 then .error .divisionByZero
      else .ok (m.storeValue r.toNat n (narrow n (opDiv (m.valueAt a.toNat n) (m.valueAt b.toNat n)))) := by
  simp only [divOp, readDirect_eq, checkDirect_eq, writeDirect_eq, checkDivisor]
  by_cases ha : m.size < a.toNat + n <;> by_cases hb : m.size < b.toNat + n <;>
    by_cases hr : m.size < r.toNat + n <;> by_cases h0 : m.valueAt b.toNat n = 0 <;>
    simp only [ha, hb, hr, h0, if_true, if_false] <;> simp [bind, Except.bind, h0]

theorem notOp_eq (n : Nat) (inp r : Word) (m : Memory) :
    notOp n inp r m =
      if m.size < inp.toNat + n then .error (.outOfBounds inp.toNat n)
      else if m.size < r.toNat + n then .error (.outOfBounds r.toNat n)
      else .ok (m.storeValue r.toNat n (opNot n (m.valueAt inp.toNat n))) := by
  simp only [notOp, readDirect_eq, checkDirect_eq, writeDirect_eq]
  by_cases ha : m.size < inp.toNat + n <;> by_cases hr : m.size < r.toNat + n <;>
    simp only [ha, hr, if_true, if_false] <;> rfl

theorem shiftOp_eq (n : Nat) (f : Nat → Nat → Nat) (inp bits r : Word) (m : Memory) :
    shiftOp n f inp bits r m =
      if m.size < inp.toNat + n then .error (.outOfBounds inp.toNat n)
      else if m.size < r.toNat + n then .error (.outOfBounds r.toNat n)
      else if 8 * n < bits.toNat then .error (.invalidShiftAmount bits)
      else .ok (m.storeValue r.toNat n (f (m.valueAt inp.toNat n) bits.toNat)) := by
  simp only [shiftOp, readDirect_eq, checkDirect_eq, writeDirect_eq, checkShift, gt_iff_lt]
  by_cases ha : m.size < inp.toNat + n <;> by_cases hr : m.size < r.toNat + n <;>
    by_cases hb : 8 * n < bits.toNat <;> simp only [ha, hr, hb, if_true, if_false] <;> rfl

theorem jumpThroughOp_eq (a : Word) (m : Memory) :
    jumpThroughOp a m =
      if m.size < a.toNat + 2 then .error (.outOfBounds a.toNat 2)
      else .ok (m.setIp (BitVec.ofNat 16 (m.valueAt a.toNat 2))) := by
  simp only [jumpThroughOp, readPointer_eq]
  by_cases ha : m.size < a.toNat + 2 <;> simp only [ha, if_true, if_false] <;> rfl

theorem cjumpOp_eq (n : Nat) (a b t : Word) (m : Memory) :
    cjumpOp n a b t m =
      if m.size < a.toNat + n then .error (.outOfBounds a.toNat n)
      else if m.size < b.toNat + n then .error (.outOfBounds b.toNat n)
      else .ok (if m.valueAt a.toNat n = m.valueAt b.toNat n then m.setIp t else m) := by
  simp only [cjumpOp, readDirect_eq, jumpTaken, decide_eq_true_eq]
  by_cases ha : m.size < a.toNat + n <;> by_cases hb : m.size < b.toNat + n <;>
    simp only [ha, hb, if_true, if_false] <;> rfl

theorem compareOp_eq (n : Nat) (a b r : Word) (m : Memory) :
    compareOp n a b r m =
      if m.size < a.toNat + n then .error (.outOfBounds a.toNat n)
      else if m.size < b.toNat + n then .error (.outOfBounds b.toNat n)
      else if m.size < r.toNat + n then .error (.outOfBounds r.toNat n)
      else .ok (m.storeValue r.toNat n (compareCode n (m.valueAt a.toNat n) (m.valueAt b.toNat n))) := by
  simp only [compareOp, readDirect_eq, checkDirect_eq, writeDirect_eq]
  by_cases ha : m.size < a.toNat + n <;> by_cases hb : m.size < b.toNat + n <;>
    by_cases hr : m.size < r.toNat + n <;> simp only [ha, hb, hr, if_true, if_false] <;> rfl

theorem storeOp_eq (n : Nat) (a : Word) (v : Nat) (m : Memory) :
    storeOp n a v m =
      if m.size < a.toNat + n then .error (.outOfBounds a.toNat n) else .ok (m.storeValue a.toNat n v) := rfl

theorem copyOp_eq (n : Nat) (src dst : Word) (m : Memory) :
    copyOp n src dst m =
      if m.size < src.toNat + n then .error (.outOfBounds src.toNat n)
      else if m.size < dst.toNat + n then .error (.outOfBounds dst.toNat n)
      else .ok (m.storeValue dst.toNat n (m.valueAt src.toNat n)) := by
  simp only [copyOp, readDirect_eq, writeDirect_eq]
  by_cases ha : m.size < src.toNat + n <;> by_cases hb : m.size < dst.toNat + n <;>
    simp only [ha, hb, if_true, if_false] <;> rfl

theorem getOp_eq (n : Nat) (fromP dst : Word) (m : Memory) :
    getOp n fromP dst m =
      if m.size < fromP.toNat + 2 then .error (.outOfBounds fromP.toNat 2)
      else if m.size < m.valueAt fromP.toNat 2 + n then .error (.outOfBounds (m.valueAt fromP.toNat 2) n)
      else if m.size < dst.toNat + n then .error (.outOfBounds dst.toNat n)
      else .ok (m.storeValue dst.toNat n (m.valueAt (m.valueAt fromP.toNat 2) n)) := by
  have hp : (BitVec.ofNat 16 (m.valueAt fromP.toNat 2)).toNat = m.valueAt fromP.toNat 2 := by
    have := m.valueAt_lt fromP.toNat 2
    rw [BitVec.toNat_ofNat]; omega
  simp only [getOp, readDirect_eq, readPointer_eq, writeDirect_eq]
  by_cases ha : m.size < fromP.toNat + 2
  · simp only [ha, if_true]; rfl
  · simp only [ha, if_false, bind, Except.bind, hp]
    by_cases hv : m.size < m.valueAt fromP.toNat 2 + n <;> by_cases hd : m.size < dst.toNat + n <;>
      simp only [hv, hd, if_true, if_false]

theorem setOp_eq (n : Nat) (src toP : Word) (m : Memory) :
    setOp n src toP m =
      if m.size < src.toNat + n then .error (.outOfBounds src.toNat n)
      else if m.size < toP.toNat + 2 then .error (.outOfBounds toP.toNat 2)
      else if m.size < m.valueAt toP.toNat 2 + n then .error (.outOfBounds (m.valueAt toP.toNat 2) n)
      else .ok (m.storeValue (m.valueAt toP.toNat 2) n (m.valueAt src.toNat n)) := by
  have hp : (BitVec.ofNat 16 (m.valueAt toP.toNat 2)).toNat = m.valueAt toP.toNat 2 := by
    have := m.valueAt_lt toP.toNat 2
    rw [BitVec.toNat_ofNat]; omega
  simp only [setOp, readDirect_eq, readPointer_eq, writeDirect_eq]
  by_cases ha : m.size < src.toNat + n
  · simp only [ha, if_true]; rfl
  · by_cases hb : m.size < toP.toNat + 2
    · simp only [ha, hb, if_true, if_false, bind, Except.bind]
    · simp only [ha, hb, if_false, bind, Except.bind, hp]

/-! ### Fetch -/

/-- All that fetch can do (R83 to R86), by the outcome of decoding at the IP. -/
theorem fetch_cases (m : Memory) :
    (∃ i rest, decodeAt m m.ip.toNat m.size = .instr i rest ∧ fetch m = .ok i) ∨
    (∃ tag, decodeAt m m.ip.toNat m.size = .invalidOpcode tag ∧ fetch m = .error (.invalidOpcode tag)) ∨
    (∃ tag w, decodeAt m m.ip.toNat m.size = .truncated tag w ∧
      fetch m = .error (.outOfBounds (m.ip.toNat + 1) (w - 1))) ∨
    (decodeAt m m.ip.toNat m.size = .empty ∧ fetch m = .error (.outOfBounds m.ip.toNat 1)) := by
  unfold fetch
  cases h : decodeAt m m.ip.toNat m.size with
  | instr i rest => exact .inl ⟨i, rest, rfl, by simp [h]⟩
  | invalidOpcode tag => exact .inr (.inl ⟨tag, rfl, by simp [h]⟩)
  | truncated tag w => exact .inr (.inr (.inl ⟨tag, w, rfl, by simp [h]⟩))
  | empty => exact .inr (.inr (.inr ⟨rfl, by simp [h]⟩))

end Sys2Proof.Machine
end

