-- ==== Sys2Proof/Laws/Effects.lean ====
section
/-! SUPPORT. The effect of every opcode as a function of the working memory, and what an effect can do, said once. -/

namespace Sys2Proof.Machine

/-- The effect a meaning runs in phase 5 (R88). It "depends only on `M1` and the field values". -/
def effectOf : Instr → Memory → Except Failure Memory
  | .add a b r => binOp 1 opAdd a b r
  | .sub a b r => binOp 1 opSub a b r
  | .mul a b r => binOp 1 opMul a b r
  | .div a b r => divOp 1 a b r
  | .and a b r => binOp 1 opAnd a b r
  | .or a b r => binOp 1 opOr a b r
  | .xor a b r => binOp 1 opXor a b r
  | .addW a b r => binOp 2 opAdd a b r
  | .subW a b r => binOp 2 opSub a b r
  | .mulW a b r => binOp 2 opMul a b r
  | .divW a b r => divOp 2 a b r
  | .andW a b r => binOp 2 opAnd a b r
  | .orW a b r => binOp 2 opOr a b r
  | .xorW a b r => binOp 2 opXor a b r
  | .not inp r => notOp 1 inp r
  | .lshift inp bits r => shiftOp 1 (opShl 1) inp bits r
  | .rshift inp bits r => shiftOp 1 opShr inp bits r
  | .jumpV addr => jumpToOp addr
  | .jump addr => jumpThroughOp addr
  | .cjump a b addr => cjumpOp 1 a b addr
  | .cjumpW a b addr => cjumpOp 2 a b addr
  | .cmp a b r => compareOp 1 a b r
  | .cmpW a b r => compareOp 2 a b r
  | .setV addr value => storeOp 1 addr (loByte value).toNat
  | .setVW addr value => storeOp 2 addr value.toNat
  | .copy src dst => copyOp 1 src dst
  | .copyW src dst => copyOp 2 src dst
  | .get fromP dst => getOp 1 fromP dst
  | .getW fromP dst => getOp 2 fromP dst
  | .set src toP => setOp 1 src toP
  | .setW src toP => setOp 2 src toP
  | .nop => emptyOp

/-- Every meaning advances by its row's width, runs its effect and commits (R87 to R89). -/
theorem exec_eq_runEffect (i : Instr) (s : State) : exec i s = s.runEffect i.row.format (effectOf i) := by
  cases i <;> rfl

/-- An instruction commits some memory or halts with nothing committed (R89). -/
theorem exec_cases {i : Instr} {s t : State} (h : exec i s = .next t) :
    (∃ m, effectOf i (s.mem.advance i.row.format) = .ok m ∧ t = State.committed m) ∨
      ∃ c, effectOf i (s.mem.advance i.row.format) = .error c ∧ t = s.takeFailure c :=
  State.runEffect_cases (exec_eq_runEffect i s ▸ h)

/-- What a shared operation does when it succeeds: nothing, one write of the IP, or one write of one or two bytes inside memory
(R15, R46). -/
def WritesOnce (m m' : Memory) : Prop :=
  m' = m ∨ (∃ w, m' = m.setIp w) ∨
    ∃ a n v, (n = 1 ∨ n = 2) ∧ a + n ≤ m.size ∧ m' = m.storeValue a n v

theorem WritesOnce.params {m m' : Memory} (h : WritesOnce m m') : m'.params = m.params := by
  rcases h with rfl | ⟨w, rfl⟩ | ⟨a, n, v, _, _, rfl⟩ <;> simp

theorem WritesOnce.wf {m m' : Memory} (h : WritesOnce m m') (hm : m.wf) (hs : 2 ≤ m.size) : m'.wf := by
  rcases h with rfl | ⟨w, rfl⟩ | ⟨a, n, v, _, ha, rfl⟩
  · exact hm
  · exact Memory.wf_setIp hm hs w
  · exact Memory.wf_storeValue hm ha v

end Sys2Proof.Machine
end

