-- ==== Sys2Proof/Laws/PerInstr.lean ====
section
/-! SUPPORT. Facts about every instruction as syntax, one lemma per constructor. -/

namespace Sys2Proof.Laws

/-- The encoding of an instruction has exactly its width in bytes, and its row has as many fields as its format (R67, R74). -/
def EncodedWidth.Statement (i : Instr) : Prop :=
  (encode i).length = i.width ∧ i.row.fields.length = i.row.format.fieldCount

theorem EncodedWidth.add (a b result : Word) : EncodedWidth.Statement (.add a b result) := ⟨rfl, rfl⟩
theorem EncodedWidth.sub (a b result : Word) : EncodedWidth.Statement (.sub a b result) := ⟨rfl, rfl⟩
theorem EncodedWidth.mul (a b result : Word) : EncodedWidth.Statement (.mul a b result) := ⟨rfl, rfl⟩
theorem EncodedWidth.div (a b result : Word) : EncodedWidth.Statement (.div a b result) := ⟨rfl, rfl⟩
theorem EncodedWidth.and (a b result : Word) : EncodedWidth.Statement (.and a b result) := ⟨rfl, rfl⟩
theorem EncodedWidth.or (a b result : Word) : EncodedWidth.Statement (.or a b result) := ⟨rfl, rfl⟩
theorem EncodedWidth.xor (a b result : Word) : EncodedWidth.Statement (.xor a b result) := ⟨rfl, rfl⟩
theorem EncodedWidth.addW (a b result : Word) : EncodedWidth.Statement (.addW a b result) := ⟨rfl, rfl⟩
theorem EncodedWidth.subW (a b result : Word) : EncodedWidth.Statement (.subW a b result) := ⟨rfl, rfl⟩
theorem EncodedWidth.mulW (a b result : Word) : EncodedWidth.Statement (.mulW a b result) := ⟨rfl, rfl⟩
theorem EncodedWidth.divW (a b result : Word) : EncodedWidth.Statement (.divW a b result) := ⟨rfl, rfl⟩
theorem EncodedWidth.andW (a b result : Word) : EncodedWidth.Statement (.andW a b result) := ⟨rfl, rfl⟩
theorem EncodedWidth.orW (a b result : Word) : EncodedWidth.Statement (.orW a b result) := ⟨rfl, rfl⟩
theorem EncodedWidth.xorW (a b result : Word) : EncodedWidth.Statement (.xorW a b result) := ⟨rfl, rfl⟩
theorem EncodedWidth.not (inp result : Word) : EncodedWidth.Statement (.not inp result) := ⟨rfl, rfl⟩
theorem EncodedWidth.lshift (inp bits result : Word) : EncodedWidth.Statement (.lshift inp bits result) := ⟨rfl, rfl⟩
theorem EncodedWidth.rshift (inp bits result : Word) : EncodedWidth.Statement (.rshift inp bits result) := ⟨rfl, rfl⟩
theorem EncodedWidth.jumpV (addr : Word) : EncodedWidth.Statement (.jumpV addr) := ⟨rfl, rfl⟩
theorem EncodedWidth.jump (addr : Word) : EncodedWidth.Statement (.jump addr) := ⟨rfl, rfl⟩
theorem EncodedWidth.cjump (a b addr : Word) : EncodedWidth.Statement (.cjump a b addr) := ⟨rfl, rfl⟩
theorem EncodedWidth.cjumpW (a b addr : Word) : EncodedWidth.Statement (.cjumpW a b addr) := ⟨rfl, rfl⟩
theorem EncodedWidth.cmp (a b result : Word) : EncodedWidth.Statement (.cmp a b result) := ⟨rfl, rfl⟩
theorem EncodedWidth.cmpW (a b result : Word) : EncodedWidth.Statement (.cmpW a b result) := ⟨rfl, rfl⟩
theorem EncodedWidth.setV (addr value : Word) : EncodedWidth.Statement (.setV addr value) := ⟨rfl, rfl⟩
theorem EncodedWidth.setVW (addr value : Word) : EncodedWidth.Statement (.setVW addr value) := ⟨rfl, rfl⟩
theorem EncodedWidth.copy (src dst : Word) : EncodedWidth.Statement (.copy src dst) := ⟨rfl, rfl⟩
theorem EncodedWidth.copyW (src dst : Word) : EncodedWidth.Statement (.copyW src dst) := ⟨rfl, rfl⟩
theorem EncodedWidth.get (fromP dst : Word) : EncodedWidth.Statement (.get fromP dst) := ⟨rfl, rfl⟩
theorem EncodedWidth.getW (fromP dst : Word) : EncodedWidth.Statement (.getW fromP dst) := ⟨rfl, rfl⟩
theorem EncodedWidth.set (src toP : Word) : EncodedWidth.Statement (.set src toP) := ⟨rfl, rfl⟩
theorem EncodedWidth.setW (src toP : Word) : EncodedWidth.Statement (.setW src toP) := ⟨rfl, rfl⟩
theorem EncodedWidth.nop : EncodedWidth.Statement (.nop) := ⟨rfl, rfl⟩

end Sys2Proof.Laws
end

