-- ==== Sys2Proof/Laws/Step.lean ====
section
/-! SUPPORT. What a step can do, said once, and the laws of memory images. -/

namespace Sys2Proof.Machine

/-! ### The step -/

/-- All that a step can do (R90): nothing while Halted, the fetched instruction, or halt at fetch. -/
theorem step_cases {s t : State} (h : step s = .next t) :
    (s.run = .halted ∧ t = s) ∨
    (s.run = .ready ∧ s.mem.params.Legal ∧ ∃ i, fetch s.mem = .ok i ∧ exec i s = .next t) ∨
    (s.run = .ready ∧ s.mem.params.Legal ∧ ∃ e, fetch s.mem = .error e ∧ t = s.takeFailure e) := by
  unfold step at h
  split at h
  next hr => exact .inl ⟨hr, (Host.Outcome.next.inj h).symm⟩
  next hr =>
    split at h
    next hl =>
      split at h
      next i hi => exact .inr (.inl ⟨hr, hl, i, hi, h⟩)
      next e he => exact .inr (.inr ⟨hr, hl, e, he, (Host.Outcome.next.inj h).symm⟩)
    next => cases h

/-- A Ready step with legal parameters, by what fetch gives. -/
theorem step_ready {s : State} (hr : s.run = .ready) (hl : s.mem.params.Legal) :
    step s = match fetch s.mem with
      | .ok i => exec i s
      | .error e => .next (s.takeFailure e) := by
  cases hf : fetch s.mem <;> simp [step, hr, hl, hf]

/-! ### Images -/

theorem imageCells_lower (image : List Byte) : ∀ (a : Nat), ∀ c ∈ imageCells a image, a ≤ c.1 ∧ c.1 < a + image.length := by
  induction image with
  | nil => intro a c hc; simp [imageCells] at hc
  | cons b rest ih =>
    intro a c hc
    unfold imageCells at hc
    split at hc
    · have := ih _ c hc
      simp only [List.length_cons]; omega
    · rcases List.mem_cons.mp hc with rfl | hc
      · simp
      · have := ih _ c hc
        simp only [List.length_cons]; omega

/-- The cells of an image are canonical. -/
theorem imageCells_canonical (image : List Byte) :
    ∀ {a size : Nat}, a + image.length ≤ size → Canonical size (imageCells a image) := by
  induction image with
  | nil => intro a size _; exact ⟨List.Pairwise.nil, by simp [imageCells]⟩
  | cons b rest ih =>
    intro a size h
    simp only [List.length_cons] at h
    have hrest : Canonical size (imageCells (a + 1) rest) := ih (by omega)
    unfold imageCells
    split
    · exact hrest
    next hb =>
      refine ⟨List.pairwise_cons.mpr ⟨fun c hc => ?_, hrest.1⟩, fun c hc => ?_⟩
      · have := imageCells_lower rest _ c hc
        show a < c.1
        omega
      · rcases List.mem_cons.mp hc with rfl | hc
        · exact ⟨hb, by show a < size; omega⟩
        · exact hrest.2 c hc

theorem cellAt_imageCells (image : List Byte) :
    ∀ (a x : Nat), cellAt x (imageCells a image) = if a ≤ x then image.getD (x - a) 0 else 0 := by
  induction image with
  | nil => intro a x; simp [imageCells, cellAt, blankByte]
  | cons b rest ih =>
    intro a x
    have step : cellAt x (imageCells a (b :: rest)) = if x = a then b else cellAt x (imageCells (a + 1) rest) := by
      by_cases hb : b = blankByte
      · rw [imageCells, if_pos hb]
        by_cases hx : x = a
        · rw [if_pos hx, ih, if_neg (by omega), hb]; rfl
        · rw [if_neg hx]
      · rw [imageCells, if_neg hb, cellAt]
        exact if_congr eq_comm rfl rfl
    rw [step, ih]
    rcases Nat.lt_trichotomy x a with h | h | h
    · rw [if_neg (by omega), if_neg (by omega), if_neg (by omega)]
    · subst h
      rw [if_pos rfl, if_pos le_rfl, Nat.sub_self, List.getD_cons_zero]
    · obtain ⟨k, rfl⟩ : ∃ k, x = a + 1 + k := ⟨x - (a + 1), by omega⟩
      rw [if_neg (by omega), if_pos (by omega), if_pos (by omega), show a + 1 + k - a = k + 1 by omega,
        List.getD_cons_succ, show a + 1 + k - (a + 1) = k by omega]

@[simp] theorem Memory.ofImage_params (p : Config.Params) (image : List Byte) : (Memory.ofImage p image).params = p := rfl

theorem Memory.byteAt_ofImage (p : Config.Params) (image : List Byte) (x : Nat) :
    (Memory.ofImage p image).byteAt x = image.getD x 0 := by
  simpa [Memory.ofImage, Memory.byteAt] using cellAt_imageCells image 0 x

theorem Memory.wf_ofImage {p : Config.Params} {image : List Byte} (h : ImageFits p image) :
    (Memory.ofImage p image).wf :=
  imageCells_canonical image (by simpa using h.le)

@[simp] theorem State.resetWith_mem (s : State) (image : List Byte) :
    (s.resetWith image).mem = Memory.ofImage s.mem.params image := rfl
@[simp] theorem State.resetWith_run (s : State) (image : List Byte) : (s.resetWith image).run = .ready := rfl
@[simp] theorem State.resetWith_halt (s : State) (image : List Byte) : (s.resetWith image).halt = .none := rfl

end Sys2Proof.Machine
end

