-- ==== Sys2Proof/Tests/Slice0.lean ====
section
/-! SUPPORT. The model's own tests. The expected results are the spec's: the encoding tables of 30_encoding (R62, R66) for the
decode tests, and the vectors of 95_test_vectors (V, S, M, X, Z) for the rest; the names carry the vector's id. The witnesses at
the end meet the hypotheses of the statements. -/

namespace Sys2Proof.Tests

open Sys2Proof.Machine Sys2Proof.Claims

/-! ### Building small states -/

/-- Memory of `size` bytes with the given byte strings in it. -/
def memoryOf (size : Nat) (data : List (Nat × List Byte)) : Memory :=
  data.foldl (fun m d => m.storeBytes d.1 d.2) ⟨⟨size, 2⟩, []⟩

/-- A Ready state with the given IP (95_test_vectors, common setup). -/
def readyAt (size : Nat) (ip : Word) (data : List (Nat × List Byte)) : State :=
  State.committed ((memoryOf size data).setIp ip)

/-- The common setup: `MEM_SIZE = 0x4000`, IP 0x0002, the instruction there, and other initial memory. -/
def start (code : List Byte) (data : List (Nat × List Byte)) : State := readyAt 0x4000 0x0002 ((2, code) :: data)

/-- The state after a step, when the step answers one. -/
def after (s : State) : Option State :=
  match step s with
  | .next t => some t
  | _ => none

/-- A step from the common setup ends Ready with this IP and these bytes changed, and no other change at all. -/
abbrev Runs (code : List Byte) (data : List (Nat × List Byte)) (ip : Word) (changed : List (Nat × List Byte)) : Prop :=
  after (start code data) =
    some (State.committed ((changed.foldl (fun m d => m.storeBytes d.1 d.2) (start code data).mem).setIp ip))

/-- A step from `s` halts with this failure at the IP and changes no byte. -/
abbrev Halts (s : State) (e : Failure) : Prop := after s = some ⟨s.mem, .halted, .halted e s.mem.ip⟩

/-- A step from the common setup halts with this failure. -/
abbrev Fails (code : List Byte) (data : List (Nat × List Byte)) (e : Failure) : Prop := Halts (start code data) e

/-! ### Well-formedness: each check refuses an ill-formed term -/

theorem test_wf_default : Config.defaultParams.Legal := by decide
theorem test_wf_memSize_too_small : ¬ (Config.Params.mk 1 1).Legal := by decide
theorem test_wf_memSize_too_large : ¬ (Config.Params.mk 65537 2).Legal := by decide
theorem test_wf_genSize_too_small : ¬ (Config.Params.mk 65536 1).Legal := by decide
theorem test_wf_genSize_too_large : ¬ (Config.Params.mk 16 17).Legal := by decide
theorem test_wf_extremes : (Config.Params.mk 2 2).Legal ∧ (Config.Params.mk 65536 65536).Legal := by decide
theorem test_wf_image_length : ImageFits ⟨3, 2⟩ [1, 2, 3] ∧ ¬ ImageFits ⟨3, 2⟩ [1, 2] := by decide

/-! ### Decoding: words written out from the encoding tables (R62, R66), the three fields different -/

theorem test_decode_ADD : decode [0x01, 0x22, 0x11, 0x44, 0x33, 0x66, 0x55] = .instr (.add 0x1122 0x3344 0x5566) [] := by decide
theorem test_decode_SUB : decode [0x02, 0x22, 0x11, 0x44, 0x33, 0x66, 0x55] = .instr (.sub 0x1122 0x3344 0x5566) [] := by decide
theorem test_decode_MUL : decode [0x03, 0x22, 0x11, 0x44, 0x33, 0x66, 0x55] = .instr (.mul 0x1122 0x3344 0x5566) [] := by decide
theorem test_decode_DIV : decode [0x04, 0x22, 0x11, 0x44, 0x33, 0x66, 0x55] = .instr (.div 0x1122 0x3344 0x5566) [] := by decide
theorem test_decode_AND : decode [0x05, 0x22, 0x11, 0x44, 0x33, 0x66, 0x55] = .instr (.and 0x1122 0x3344 0x5566) [] := by decide
theorem test_decode_OR : decode [0x06, 0x22, 0x11, 0x44, 0x33, 0x66, 0x55] = .instr (.or 0x1122 0x3344 0x5566) [] := by decide
theorem test_decode_XOR : decode [0x07, 0x22, 0x11, 0x44, 0x33, 0x66, 0x55] = .instr (.xor 0x1122 0x3344 0x5566) [] := by decide
theorem test_decode_ADD_W : decode [0x08, 0x22, 0x11, 0x44, 0x33, 0x66, 0x55] = .instr (.addW 0x1122 0x3344 0x5566) [] := by decide
theorem test_decode_SUB_W : decode [0x09, 0x22, 0x11, 0x44, 0x33, 0x66, 0x55] = .instr (.subW 0x1122 0x3344 0x5566) [] := by decide
theorem test_decode_MUL_W : decode [0x0A, 0x22, 0x11, 0x44, 0x33, 0x66, 0x55] = .instr (.mulW 0x1122 0x3344 0x5566) [] := by decide
theorem test_decode_DIV_W : decode [0x0B, 0x22, 0x11, 0x44, 0x33, 0x66, 0x55] = .instr (.divW 0x1122 0x3344 0x5566) [] := by decide
theorem test_decode_AND_W : decode [0x0C, 0x22, 0x11, 0x44, 0x33, 0x66, 0x55] = .instr (.andW 0x1122 0x3344 0x5566) [] := by decide
theorem test_decode_OR_W : decode [0x0D, 0x22, 0x11, 0x44, 0x33, 0x66, 0x55] = .instr (.orW 0x1122 0x3344 0x5566) [] := by decide
theorem test_decode_XOR_W : decode [0x0E, 0x22, 0x11, 0x44, 0x33, 0x66, 0x55] = .instr (.xorW 0x1122 0x3344 0x5566) [] := by decide
theorem test_decode_NOT : decode [0x0F, 0x22, 0x11, 0x44, 0x33] = .instr (.not 0x1122 0x3344) [] := by decide
theorem test_decode_LSHIFT : decode [0x10, 0x22, 0x11, 0x44, 0x33, 0x66, 0x55] = .instr (.lshift 0x1122 0x3344 0x5566) [] := by decide
theorem test_decode_RSHIFT : decode [0x11, 0x22, 0x11, 0x44, 0x33, 0x66, 0x55] = .instr (.rshift 0x1122 0x3344 0x5566) [] := by decide
theorem test_decode_JUMP_V : decode [0x12, 0x22, 0x11] = .instr (.jumpV 0x1122) [] := by decide
theorem test_decode_JUMP : decode [0x13, 0x22, 0x11] = .instr (.jump 0x1122) [] := by decide
theorem test_decode_CJUMP : decode [0x14, 0x22, 0x11, 0x44, 0x33, 0x66, 0x55] = .instr (.cjump 0x1122 0x3344 0x5566) [] := by decide
theorem test_decode_CJUMP_W : decode [0x15, 0x22, 0x11, 0x44, 0x33, 0x66, 0x55] = .instr (.cjumpW 0x1122 0x3344 0x5566) [] := by decide
theorem test_decode_CMP : decode [0x16, 0x22, 0x11, 0x44, 0x33, 0x66, 0x55] = .instr (.cmp 0x1122 0x3344 0x5566) [] := by decide
theorem test_decode_CMP_W : decode [0x17, 0x22, 0x11, 0x44, 0x33, 0x66, 0x55] = .instr (.cmpW 0x1122 0x3344 0x5566) [] := by decide
theorem test_decode_SET_V : decode [0x18, 0x22, 0x11, 0x44, 0x33] = .instr (.setV 0x1122 0x3344) [] := by decide
theorem test_decode_SET_VW : decode [0x19, 0x22, 0x11, 0x44, 0x33] = .instr (.setVW 0x1122 0x3344) [] := by decide
theorem test_decode_COPY : decode [0x1A, 0x22, 0x11, 0x44, 0x33] = .instr (.copy 0x1122 0x3344) [] := by decide
theorem test_decode_COPY_W : decode [0x1B, 0x22, 0x11, 0x44, 0x33] = .instr (.copyW 0x1122 0x3344) [] := by decide
theorem test_decode_GET : decode [0x1C, 0x22, 0x11, 0x44, 0x33] = .instr (.get 0x1122 0x3344) [] := by decide
theorem test_decode_GET_W : decode [0x1D, 0x22, 0x11, 0x44, 0x33] = .instr (.getW 0x1122 0x3344) [] := by decide
theorem test_decode_SET : decode [0x1E, 0x22, 0x11, 0x44, 0x33] = .instr (.set 0x1122 0x3344) [] := by decide
theorem test_decode_SET_W : decode [0x1F, 0x22, 0x11, 0x44, 0x33] = .instr (.setW 0x1122 0x3344) [] := by decide
theorem test_decode_NOP : decode [0x20] = .instr .nop [] := by decide

/-- A tag whose record is cut short is not decoded, and neither are the tags around the closed set (R69, R85). -/
theorem test_decode_refused : decode [0x01, 0x22, 0x11, 0x44, 0x33, 0x66] = .truncated 0x01 7 ∧
    decode [0x00] = .invalidOpcode 0x00 ∧ decode [0x21] = .invalidOpcode 0x21 ∧ decode [] = .empty := by decide

/-- The opcode table as the decoder gives it, tag 0x01 first (R66). -/
def table : List Row := (List.range 32).filterMap fun t => (decodeTableWord 56 (t + 1)).map Instr.row
theorem test_table_mnemonics : table.map (·.mnemonic) = ["ADD", "SUB", "MUL", "DIV", "AND", "OR", "XOR", "ADD_W", "SUB_W", "MUL_W", "DIV_W", "AND_W", "OR_W", "XOR_W", "NOT", "LSHIFT", "RSHIFT", "JUMP_V", "JUMP", "CJUMP", "CJUMP_W", "CMP", "CMP_W", "SET_V", "SET_VW", "COPY", "COPY_W", "GET", "GET_W", "SET", "SET_W", "NOP"] := by decide
theorem test_table_widths : table.map (fun r => r.format.width) =
    [7, 7, 7, 7, 7, 7, 7, 7, 7, 7, 7, 7, 7, 7, 5, 7, 7, 3, 3, 7, 7, 7, 7, 5, 5, 5, 5, 5, 5, 5, 5, 1] := by decide
theorem test_table_operandBytes : table.map (·.operandBytes) =
    [1, 1, 1, 1, 1, 1, 1, 2, 2, 2, 2, 2, 2, 2, 1, 1, 1, 0, 0, 1, 2, 1, 2, 1, 2, 1, 2, 1, 2, 1, 2, 0] := by decide

/-! ### One step of each instruction -/

theorem test_ADD_V1 : Runs [0x01, 0x00, 0x01, 0x01, 0x01, 0x02, 0x01] [(0x0100, [0xF0]), (0x0101, [0x20])] 0x0009 [(0x0102, [0x10])] := by decide
theorem test_ADD_V4 : Fails [0x01, 0x00, 0x40, 0x00, 0x01, 0x02, 0x01] [] (.outOfBounds 0x4000 1) := by decide
theorem test_SUB_V6 : Runs [0x02, 0x00, 0x01, 0x01, 0x01, 0x02, 0x01] [(0x0100, [0x05]), (0x0101, [0x07])] 0x0009 [(0x0102, [0xFE])] := by decide
theorem test_MUL_V9 : Runs [0x03, 0x00, 0x01, 0x01, 0x01, 0x02, 0x01] [(0x0100, [0xFF]), (0x0101, [0xFF])] 0x0009 [(0x0102, [0x01])] := by decide
theorem test_DIV_V11 : Runs [0x04, 0x00, 0x01, 0x01, 0x01, 0x02, 0x01] [(0x0100, [0xFF]), (0x0101, [0x10])] 0x0009 [(0x0102, [0x0F])] := by decide
theorem test_DIV_V12 : Fails [0x04, 0x00, 0x01, 0x01, 0x01, 0x02, 0x01] [(0x0100, [0x05]), (0x0101, [0x00]), (0x0102, [0x99])] .divisionByZero := by decide
theorem test_AND_V15 : Runs [0x05, 0x00, 0x01, 0x01, 0x01, 0x02, 0x01] [(0x0100, [0xF0]), (0x0101, [0x3C])] 0x0009 [(0x0102, [0x30])] := by decide
theorem test_OR_V16 : Runs [0x06, 0x00, 0x01, 0x01, 0x01, 0x02, 0x01] [(0x0100, [0xF0]), (0x0101, [0x0C])] 0x0009 [(0x0102, [0xFC])] := by decide
theorem test_XOR_V18 : Runs [0x07, 0x00, 0x01, 0x01, 0x01, 0x02, 0x01] [(0x0100, [0xFF]), (0x0101, [0x0F])] 0x0009 [(0x0102, [0xF0])] := by decide
theorem test_ADD_W_V20 : Runs [0x08, 0x00, 0x01, 0x02, 0x01, 0x04, 0x01] [(0x0100, [0xFF, 0x00]), (0x0102, [0x01, 0x00])] 0x0009 [(0x0105, [0x01])] := by decide
theorem test_ADD_W_V22 : Runs [0x08, 0x00, 0x01, 0x02, 0x01, 0x01, 0x01] [(0x0100, [0x11, 0x11]), (0x0102, [0x22, 0x22])] 0x0009 [(0x0101, [0x33]), (0x0102, [0x33])] := by decide
theorem test_SUB_W_V24 : Runs [0x09, 0x00, 0x01, 0x02, 0x01, 0x04, 0x01] [(0x0100, [0x00, 0x00]), (0x0102, [0x01, 0x00])] 0x0009 [(0x0104, [0xFF]), (0x0105, [0xFF])] := by decide
theorem test_SUB_W_V25 : Runs [0x09, 0x00, 0x00, 0x02, 0x01, 0x04, 0x01] [(0x0102, [0x02, 0x00])] 0x0009 [(0x0104, [0x07])] := by decide
theorem test_MUL_W_V26 : Runs [0x0A, 0x00, 0x01, 0x02, 0x01, 0x04, 0x01] [(0x0100, [0x34, 0x12]), (0x0102, [0x10, 0x00])] 0x0009 [(0x0104, [0x40]), (0x0105, [0x23])] := by decide
theorem test_DIV_W_V29 : Runs [0x0B, 0x00, 0x01, 0x02, 0x01, 0x04, 0x01] [(0x0100, [0x34, 0x12]), (0x0102, [0x00, 0x01])] 0x0009 [(0x0104, [0x12])] := by decide
theorem test_DIV_W_V30 : Fails [0x0B, 0x00, 0x01, 0x02, 0x01, 0x04, 0x01] [(0x0100, [0x00, 0x00]), (0x0102, [0x00, 0x00])] .divisionByZero := by decide
theorem test_AND_W_V31 : Runs [0x0C, 0x00, 0x01, 0x02, 0x01, 0x04, 0x01] [(0x0100, [0x00, 0xFF]), (0x0102, [0xF0, 0x0F])] 0x0009 [(0x0105, [0x0F])] := by decide
theorem test_OR_W_V32 : Runs [0x0D, 0x00, 0x01, 0x02, 0x01, 0x04, 0x01] [(0x0100, [0x00, 0xF0]), (0x0102, [0x0F, 0x00])] 0x0009 [(0x0104, [0x0F]), (0x0105, [0xF0])] := by decide
theorem test_XOR_W_V33 : Runs [0x0E, 0x00, 0x01, 0x02, 0x01, 0x04, 0x01] [(0x0100, [0xAA, 0xAA]), (0x0102, [0xFF, 0xFF])] 0x0009 [(0x0104, [0x55]), (0x0105, [0x55])] := by decide
theorem test_NOT_V34 : Runs [0x0F, 0x00, 0x01, 0x01, 0x01] [(0x0100, [0x5A])] 0x0007 [(0x0101, [0xA5])] := by decide
theorem test_LSHIFT_V39 : Runs [0x10, 0x00, 0x01, 0x08, 0x00, 0x01, 0x01] [(0x0100, [0xFF]), (0x0101, [0x77])] 0x0009 [(0x0101, [0x00])] := by decide
theorem test_LSHIFT_V41 : Fails [0x10, 0x00, 0x01, 0x00, 0x01, 0x01, 0x01] [(0x0100, [0xFF])] (.invalidShiftAmount 0x0100) := by decide
theorem test_RSHIFT_V44 : Runs [0x11, 0x00, 0x01, 0x01, 0x00, 0x01, 0x01] [(0x0100, [0x80])] 0x0009 [(0x0101, [0x40])] := by decide
theorem test_RSHIFT_V46 : Fails [0x11, 0x00, 0x01, 0xFF, 0xFF, 0x01, 0x01] [(0x0100, [0xFF])] (.invalidShiftAmount 0xFFFF) := by decide
theorem test_JUMP_V_V47 : Runs [0x12, 0x10, 0x00] [] 0x0010 [] := by decide
theorem test_JUMP_V_V49 : Runs [0x12, 0x00, 0x50] [] 0x5000 [] := by decide
theorem test_JUMP_V50 : Runs [0x13, 0x04, 0x01] [(0x0104, [0x11, 0x00])] 0x0011 [] := by decide
theorem test_JUMP_V51 : Runs [0x13, 0x00, 0x00] [] 0x0005 [] := by decide
theorem test_CJUMP_V53 : Runs [0x14, 0x00, 0x01, 0x02, 0x01, 0x1A, 0x00] [(0x0100, [0x00]), (0x0102, [0x00])] 0x001A [] := by decide
theorem test_CJUMP_V54 : Runs [0x14, 0x00, 0x01, 0x02, 0x01, 0x1A, 0x00] [(0x0100, [0x01]), (0x0102, [0x00])] 0x0009 [] := by decide
theorem test_CJUMP_W_V57 : Runs [0x15, 0x18, 0x01, 0x1A, 0x01, 0x2B, 0x00] [(0x0118, [0x00, 0x00]), (0x011A, [0x00, 0x00])] 0x002B [] := by decide
theorem test_CJUMP_W_V58 : Runs [0x15, 0x18, 0x01, 0x1A, 0x01, 0x2B, 0x00] [(0x0118, [0x00, 0x01]), (0x011A, [0x00, 0x00])] 0x0009 [] := by decide
theorem test_CMP_V59 : Runs [0x16, 0x00, 0x01, 0x01, 0x01, 0x02, 0x01] [(0x0100, [0x05]), (0x0101, [0x09])] 0x0009 [(0x0102, [0xFF])] := by decide
theorem test_CMP_V61 : Runs [0x16, 0x00, 0x01, 0x01, 0x01, 0x02, 0x01] [(0x0100, [0x80]), (0x0101, [0x7F])] 0x0009 [(0x0102, [0x01])] := by decide
theorem test_CMP_W_V62 : Runs [0x17, 0x00, 0x01, 0x02, 0x01, 0x04, 0x01] [(0x0100, [0x00, 0x01]), (0x0102, [0xFF, 0x00])] 0x0009 [(0x0104, [0x01])] := by decide
theorem test_CMP_W_V64 : Fails [0x17, 0x00, 0x01, 0x02, 0x01, 0xFF, 0x3F] [(0x0100, [0x00, 0x00]), (0x0102, [0x00, 0x00])] (.outOfBounds 0x3FFF 2) := by decide
theorem test_SET_V_V66 : Runs [0x18, 0x00, 0x01, 0xAB, 0x12] [] 0x0007 [(0x0100, [0xAB])] := by decide
theorem test_SET_V_V67 : Runs [0x18, 0x01, 0x00, 0x01, 0x00] [] 0x0107 [] := by decide
theorem test_SET_VW_V70 : Runs [0x19, 0x10, 0x01, 0x00, 0x02] [] 0x0007 [(0x0111, [0x02])] := by decide
theorem test_SET_VW_V72 : Fails [0x19, 0xFF, 0x3F, 0x01, 0x00] [] (.outOfBounds 0x3FFF 2) := by decide
theorem test_COPY_V73 : Runs [0x1A, 0x00, 0x01, 0x00, 0x02] [(0x0100, [0x77])] 0x0007 [(0x0200, [0x77])] := by decide
theorem test_COPY_V74 : Runs [0x1A, 0x00, 0x00, 0x00, 0x02] [] 0x0007 [(0x0200, [0x07])] := by decide
theorem test_COPY_W_V76 : Runs [0x1B, 0x00, 0x01, 0x01, 0x01] [(0x0100, [0x11, 0x22, 0x33])] 0x0007 [(0x0101, [0x11]), (0x0102, [0x22])] := by decide
theorem test_COPY_W_V77 : Runs [0x1B, 0x00, 0x00, 0x00, 0x02] [] 0x0007 [(0x0200, [0x07])] := by decide
theorem test_GET_V79 : Fails [0x1C, 0x10, 0x01, 0x14, 0x01] [(0x0110, [0x00, 0x40])] (.outOfBounds 0x4000 1) := by decide
theorem test_GET_V80 : Runs [0x1C, 0x00, 0x00, 0x14, 0x01] [(0x0007, [0x20])] 0x0007 [(0x0114, [0x20])] := by decide
theorem test_GET_W_V82 : Runs [0x1D, 0x10, 0x01, 0x10, 0x01] [(0x0110, [0x00, 0x02]), (0x0200, [0x00, 0x03])] 0x0007 [(0x0111, [0x03])] := by decide
theorem test_SET_V84 : Runs [0x1E, 0x14, 0x01, 0x12, 0x01] [(0x0114, [0x11]), (0x0112, [0x12, 0x01])] 0x0007 [(0x0112, [0x11])] := by decide
theorem test_SET_W_V85 : Runs [0x1F, 0x20, 0x01, 0x12, 0x01] [(0x0120, [0xFE, 0xCA]), (0x0112, [0x00, 0x03])] 0x0007 [(0x0300, [0xFE]), (0x0301, [0xCA])] := by decide
theorem test_SET_W_V86 : Runs [0x1F, 0x20, 0x01, 0x12, 0x01] [(0x0120, [0x50, 0x00]), (0x0112, [0x00, 0x00])] 0x0050 [] := by decide
theorem test_NOP_V88 : Runs [0x20] [] 0x0003 [] := by decide

/-! ### The stepper, memory, the host -/

theorem test_S1_last_byte : after (readyAt 0x4000 0x3FFF [(0x3FFF, [0x20])]) =
    some (readyAt 0x4000 0x4000 [(0x3FFF, [0x20])]) := by decide
theorem test_S2_past_memory : Halts (readyAt 0x4000 0x4000 []) (.outOfBounds 0x4000 1) := by decide
theorem test_S3_record_cut : Halts (readyAt 0x4000 0x3FFD [(0x3FFD, [0x18])]) (.outOfBounds 0x3FFE 4) := by decide
theorem test_S6_halted_absorbs : after ⟨memoryOf 0x4000 [(2, [0x20])], .halted, .halted .divisionByZero 9⟩ =
    some ⟨memoryOf 0x4000 [(2, [0x20])], .halted, .halted .divisionByZero 9⟩ := by decide
theorem test_S7_all_zero : Halts State.reset (.invalidOpcode 0x00) := by decide
theorem test_S9_advance_wraps : after (readyAt 0x10000 0xFFFF [(0xFFFF, [0x20])]) =
    some (readyAt 0x10000 0x0000 [(0xFFFF, [0x20])]) := by decide
theorem test_S10_tag_before_record : Halts (readyAt 0x4000 0x3FFF [(0x3FFF, [0x21])]) (.invalidOpcode 0x21) := by decide
theorem test_S11_record : Halts (readyAt 0x4000 0x3FFF [(0x3FFF, [0x01])]) (.outOfBounds 0x4000 6) := by decide
theorem test_S15_patched : Runs [0x18, 0x07, 0x00, 0x20, 0x00, 0x04] [] 0x0007 [(0x0007, [0x20])] := by decide

theorem test_M2_odd_address : memRead (memoryOf 0x4000 [(0x0100, [0x34, 0x12, 0x56])]) 0x0101 2 = .ok 0x5612 := rfl
theorem test_M6_no_wrap : memRead (memoryOf 0x10000 []) 0xFFFF 2 = .error (.outOfBounds 0xFFFF 2) := rfl
theorem test_M7_all_or_nothing : transact (.hostWrite 0x3FFF [0x01, 0x02]) (start [] []) =
    (start [] [], .outOfBounds 0x3FFF 2) := by decide
theorem test_M8_read_ip : (transact (.hostRead 0 2) (readyAt 0x4000 0x0107 [])).2 = .bytes [0x07, 0x01] := by decide
theorem test_Z2_reset : (transact (.reset [2, 0, 0x20]) ⟨memoryOf 3 [(0, [1, 2, 3])], .halted, .halted .divisionByZero 9⟩) =
    (readyAt 3 2 [(2, [0x20])], .none) := by decide
theorem test_reset_wrong_length : transact (.reset [2, 0]) (readyAt 3 2 []) = (readyAt 3 2 [], .noTransition) := by decide
theorem test_halt_codes : [HaltRecord.none, .halted (.outOfBounds 0 1) 0, .halted (.invalidOpcode 0) 0,
    .halted .divisionByZero 0, .halted (.invalidShiftAmount 9) 0].map HaltRecord.code = [0, 1, 2, 3, 4] := by decide
theorem test_regions : [0, 1, 2, 0x1FFF, 0x2000, 0x3FFF, 0x4000].map (regionOf Config.defaultParams) =
    [.ipSlot, .ipSlot, .general, .general, .framebuffer, .framebuffer, .absent] := by decide

/-- The word of V1, stored where the step after reset fetches it. -/
theorem test_fetchWord_runs : after (State.reset.withFetchWord 56 0x01020101010001) = some (State.committed
    (Memory.ofImage Config.defaultParams [0x09, 0x00, 0x01, 0x00, 0x01, 0x01, 0x01, 0x02, 0x01])) := by decide
theorem test_tableWord : decodeTableWord 24 0x001012 = some (.jumpV 0x0010) := by decide

/-! ### The disassembler -/

/-- The memory of vectors X1 to X7. -/
def listed : Memory :=
  (readyAt 0x4000 2 [(2, [0x18, 0x00, 0x01, 0x2A, 0x00]), (7, [0x12, 0x10, 0x00]), (0x0A, [0x20])]).mem

theorem test_X1_status : (disassemble listed 0x0002 0x000C).2 = .unrecognised 0x000B 0x00 := by decide
theorem test_X4 : disassemble listed 0x0002 0x4001 = ([], .rangeOutOfBounds 0x4001) := by decide
theorem test_X6 : disassemble listed 0x0000 0x0002 = (["0x0000: truncated code 0x02"], .truncated 0x0000 0x02) := by decide
theorem test_X7 : disassemble listed 0x3FFE 0x4000 = (["0x3FFE: unrecognised code 0x00"], .unrecognised 0x3FFE 0x00) := by
  decide
theorem test_X8 : formatAt (start [0x10, 0x00, 0x01, 0x09, 0x00, 0x01, 0x01] []).mem 0x0002 0x4000 =
    .line "0x0002: LSHIFT in=0x0100 bits=0x0009 result=0x0101" 7 := by decide
theorem test_trace : trace 3 (start [0x12, 0x10, 0x00] []) =
    ["0x0002: JUMP_V addr=0x0010", "0x0010: unrecognised code 0x00"] := by decide
theorem test_output : outputText ["0x000A: NOP", "0x000B: NOP"] = "0x000A: NOP\n0x000B: NOP\n" := by decide

/-! ### Witnesses: each statement with hypotheses, met by concrete states and operands

Where a statement has several clauses there is one conjunct for each, at the boundary values: for the instruction
rules, the last address an operand of `n` bytes may have, and the next. -/

/-- A Ready machine at a NOP. -/
def demo : State := start [0x20] []

theorem runnable_readyAt {size : Nat} {ip : Word} {data : List (Nat × List Byte)}
    (h : (readyAt size ip data).mem.params.Legal) : Runnable (readyAt size ip data) := ⟨rfl, h⟩

theorem test_witness_DecodeAcceptsOnlyEncodings : decode [0x20, 0x55] = .instr .nop [0x55] := by decide

theorem test_witness_InvalidTags : ((0x00 : Byte) = 0x00 ∨ 0x21 ≤ (0x00 : Byte).toNat) ∧ ((0x21 : Byte) = 0x00 ∨ 0x21 ≤ (0x21 : Byte).toNat) ∧
    (let s := readyAt 0x4000 0x3FFF [(0x3FFF, [0x21])]
     Runnable s ∧ s.mem.ip.toNat < s.mem.params.memSize ∧ s.mem.byteAt s.mem.ip.toNat = 0x21) ∧
    (0x0B < 0x0C ∧ listed.byteAt 0x0B = 0x00) ∧
    (0x3FFF < 0x4000 ∧ 0x4000 ≤ listed.params.memSize ∧ listed.byteAt 0x3FFF = 0x00) :=
  ⟨by decide, by decide, ⟨runnable_readyAt (by decide), by decide⟩, by decide, by decide⟩

theorem test_witness_WidthLaw : decodeAt demo.mem 0x0002 0x0003 = .instr .nop [] ∧
    (let i := Instr.setV 0x0100 0x002A
     isTransfer i = false ∧ storesTo demo i = some (0x0100, 1) ∧ 2 ≤ 0x0100 ∧
      ∃ t, exec i demo = .next t ∧ t.run = .ready) :=
  ⟨by decide, rfl, by decide, by decide, _, rfl, rfl⟩

/-- The bounds test at its edge: the last address of one and of two bytes, and the next one (R22, R39). -/
theorem test_witness_ReadIsLittleEndianSum : (demo.mem.params.memSize < 0x4000 + 1 ∧ demo.mem.params.memSize < 0x3FFF + 2) ∧
    (0x3FFF + 1 ≤ demo.mem.params.memSize ∧ 0x3FFE + 2 ≤ demo.mem.params.memSize) := by decide
theorem test_witness_WriteStoresBytes : demo.mem.params.memSize < 0x3FFF + 2 ∧ 0x3FFE + 2 ≤ demo.mem.params.memSize ∧
    1 < 2 ∧ (0x3FFD < 0x3FFE ∨ 0x3FFE + 2 ≤ 0x3FFD) := by decide
theorem test_witness_WriteReadRoundTrip : (2 = 1 ∨ 2 = 2) ∧ 0x3FFE + 2 ≤ demo.mem.params.memSize ∧
    demo.mem.params.memSize < 0x3FFF + 2 := by decide
theorem test_witness_MixedWidthAccess : 0x3FFE + 2 ≤ demo.mem.params.memSize ∧ 255 < 256 ∧
    (∃ m, memWrite demo.mem 0x3FFE 1 255 = .ok m) ∧ 1 ≤ 0x3FFE ∧ 0x0102 ≤ demo.mem.params.memSize :=
  ⟨by decide, by decide, ⟨_, rfl⟩, by decide, by decide⟩
theorem test_witness_CanonicalMemoriesAreTheirBytes :
    let m := memoryOf 0x4000 [(0x0101, [0x07]), (0x0100, [0x05])]
    let m' := memoryOf 0x4000 [(0x0100, [0x05, 0x07, 0x09]), (0x0102, [0x00])]
    m.wf ∧ m'.wf ∧ m.params = m'.params ∧ ∀ a, m.byteAt a = m'.byteAt a := ⟨by decide, by decide, rfl, fun _ => rfl⟩
theorem test_witness_IpIsBytesZeroAndOne : ∃ m, memWrite demo.mem 0 2 (0xFFFF : Word).toNat = .ok m := ⟨_, rfl⟩

theorem test_witness_StepRunsDecodedInstruction :
    (Runnable demo ∧ decodeAt demo.mem demo.mem.ip.toNat demo.mem.params.memSize = .instr .nop [0, 0, 0, 0, 0, 0]) ∧
    (let s := readyAt 0x4000 0x3FFD [(0x3FFD, encode (.jumpV 0x0010))]
     Runnable s ∧ s.mem.ip.toNat + (Instr.jumpV 0x0010).width ≤ s.mem.params.memSize ∧
      s.mem.bytes s.mem.ip.toNat (Instr.jumpV 0x0010).width = encode (.jumpV 0x0010)) :=
  ⟨⟨runnable_readyAt (by decide), by decide⟩, runnable_readyAt (by decide), by decide, by decide⟩

theorem test_witness_FetchFailures :
    (let s := readyAt 0x4000 0x4000 []
     Runnable s ∧ s.mem.params.memSize ≤ s.mem.ip.toNat) ∧
    (let s := readyAt 0x4000 0x3FFF [(0x3FFF, [0x21])]
     Runnable s ∧ s.mem.ip.toNat < s.mem.params.memSize ∧ rom (s.mem.byteAt s.mem.ip.toNat) = none) ∧
    (let s := readyAt 0x4000 0x3FFA [(0x3FFA, [0x01])]
     Runnable s ∧ s.mem.ip.toNat < s.mem.params.memSize ∧ rom (s.mem.byteAt s.mem.ip.toNat) = some (.f3 Instr.add) ∧
      s.mem.params.memSize < s.mem.ip.toNat + (Shape.f3 Instr.add).format.width) :=
  ⟨⟨runnable_readyAt (by decide), by decide⟩, ⟨runnable_readyAt (by decide), by decide, by decide⟩,
    runnable_readyAt (by decide), by decide, rfl, by decide⟩

/-- The tag failure comes before the record's, the pointer's before its target's, the bounds before the divisor (S10, V79, V14). -/
theorem test_witness_FailurePriority : Runnable demo ∧ stepFailure demo = none ∧
    stepFailure (readyAt 0x4000 0x3FFF [(0x3FFF, [0x21])]) = some (.invalidOpcode 0x21) ∧
    stepFailure (start [0x1C, 0x10, 0x01, 0x14, 0x01] [(0x0110, [0x00, 0x40])]) = some (.outOfBounds 0x4000 1) ∧
    stepFailure (start [0x04, 0x00, 0x01, 0x01, 0x01, 0x00, 0x40] [(0x0100, [0x05])]) = some (.outOfBounds 0x4000 1) ∧
    stepFailure (start [0x04, 0x00, 0x01, 0x01, 0x01, 0x02, 0x01] [(0x0100, [0x05])]) = some .divisionByZero :=
  ⟨runnable_readyAt (by decide), by decide, by decide, by decide, by decide, by decide⟩

theorem test_witness_HaltEntryCommitsNothing : (demo.run = .ready ∧ ∃ t, step demo = .next t ∧ t.run = .ready) ∧
    (State.reset.run = .ready ∧ ∃ t, step State.reset = .next t ∧ t.run = .halted) :=
  ⟨⟨rfl, _, rfl, rfl⟩, rfl, _, rfl, rfl⟩
theorem test_witness_StepIsTotal : (readyAt 2 0 []).mem.params.Legal ∧ (readyAt 65536 0 []).mem.params.Legal := by decide
/-- Two states that differ in their halt record alone. -/
theorem test_witness_StepDependsOnMemoryAlone :
    let t : State := ⟨demo.mem, .ready, .halted .divisionByZero 0⟩
    demo.run = .ready ∧ t.run = .ready ∧ demo.mem = t.mem ∧ demo ≠ t := by decide
theorem test_witness_HaltedAbsorbs : (haltedBy demo .divisionByZero).run = .halted := rfl
theorem test_witness_IpSlotCannotBeExecuted : (Runnable (readyAt 2 0 []) ∧ (readyAt 2 0 []).mem.ip = 0) ∧
    (Runnable (readyAt 2 1 []) ∧ (readyAt 2 1 []).mem.ip = 1) ∧ Config.defaultParams.Legal :=
  ⟨⟨runnable_readyAt (by decide), by decide⟩, ⟨runnable_readyAt (by decide), by decide⟩, by decide⟩

theorem demo_inv : demo.Inv := ⟨by decide, by decide, by decide, trivial⟩
theorem test_witness_StepKeepsInvariant : demo.Inv ∧ ∃ t, step demo = .next t := ⟨demo_inv, _, rfl⟩
theorem test_witness_ResetMeetsInvariant : Config.defaultParams.Legal := by decide
theorem test_witness_OneWriteFrame :
    (let i := Instr.jumpV 0x0010
     (∃ t, exec i demo = .next t) ∧ 2 ≤ 2 ∧ storesTo demo i = none) ∧
    (let i := Instr.setVW 0x3FFE 0xFFFF
     (∃ t, exec i demo = .next t) ∧ storesTo demo i = some (0x3FFE, 2) ∧ 2 ≤ 0x3FFD ∧ (0x3FFD < 0x3FFE ∨ 0x3FFE + 2 ≤ 0x3FFD)) ∧
    (let i := Instr.set 0x0002 0x0010
     (∃ t, exec i demo = .next t) ∧ storesTo demo i = some (0x0000, 1) ∧ 2 ≤ 2 ∧ (2 < 0 ∨ 0 + 1 ≤ 2)) :=
  ⟨⟨⟨_, rfl⟩, by decide, rfl⟩, ⟨⟨_, rfl⟩, rfl, by decide, by decide⟩, ⟨_, rfl⟩, by decide, by decide, by decide⟩
theorem test_witness_SpinAndFault :
    (let s := readyAt 0x4000 0x3FFD [(0x3FFD, [0x12, 0xFD, 0x3F])]
     s.Inv ∧ s.run = .ready ∧ s.mem.ip.toNat + 3 ≤ s.mem.params.memSize ∧ s.mem.bytes s.mem.ip.toNat 3 = encode (spin s.mem.ip)) ∧
    (let s := readyAt 0x4000 0x3FFF []
     Runnable s ∧ s.mem.ip.toNat < s.mem.params.memSize ∧ s.mem.byteAt s.mem.ip.toNat = faultByte) :=
  ⟨⟨⟨by decide, by decide, by decide, trivial⟩, rfl, by decide, by decide⟩, runnable_readyAt (by decide), by decide, by decide⟩

/-- The bounds hypotheses of a rule over operands of `n` bytes, inside and outside, at the edge of `demo`'s memory. -/
abbrev Edges (n : Nat) : Prop :=
  let last : Word := BitVec.ofNat 16 (0x4000 - n)
  let next : Word := BitVec.ofNat 16 (0x4000 - n + 1)
  Inside demo last.toNat n ∧ ¬ Inside demo next.toNat n
theorem edges_one : Edges 1 := by unfold Edges Inside; decide
theorem edges_two : Edges 2 := by unfold Edges Inside; decide

theorem test_witness_AddSubMulBytes : Edges 1 := edges_one
theorem test_witness_AndOrXorBytes : Edges 1 := edges_one
theorem test_witness_AddSubMulWords : Edges 2 := edges_two
theorem test_witness_AndOrXorWords : Edges 2 := edges_two
/-- The byte at 0x0002 is the NOP's tag, so no zero; the one at 0x3FFF is 0. -/
theorem test_witness_DivBytes : Edges 1 ∧ seen demo 7 (0x0002 : Word).toNat 1 ≠ 0 ∧ seen demo 7 (0x3FFF : Word).toNat 1 = 0 :=
  ⟨edges_one, by decide, by decide⟩
theorem test_witness_DivWords : Edges 2 ∧ seen demo 7 (0x0001 : Word).toNat 2 ≠ 0 ∧ seen demo 7 (0x3FFE : Word).toNat 2 = 0 :=
  ⟨edges_two, by decide, by decide⟩
theorem test_witness_NotByte : Edges 1 := edges_one
theorem test_witness_Shifts : Edges 1 ∧ (0 : Word).toNat ≤ 8 ∧ (8 : Word).toNat ≤ 8 ∧ 8 < (9 : Word).toNat ∧ 8 < (0x0100 : Word).toNat :=
  ⟨edges_one, by decide, by decide, by decide, by decide⟩
theorem test_witness_JumpImmediate : demo.mem.params.Legal ∧ demo.mem.params.memSize ≤ (0x4000 : Word).toNat ∧ (1 : Word).toNat < 2 := by
  decide
theorem test_witness_JumpThroughPointer : Edges 2 := edges_two
theorem test_witness_ConditionalJumps : Edges 1 ∧ Edges 2 ∧
    seen demo 7 (0x3FFE : Word).toNat 1 = seen demo 7 (0x3FFF : Word).toNat 1 ∧
    seen demo 7 (0x0002 : Word).toNat 1 ≠ seen demo 7 (0x3FFF : Word).toNat 1 ∧
    seen demo 7 (0x3FFD : Word).toNat 2 = seen demo 7 (0x3FFE : Word).toNat 2 ∧
    seen demo 7 (0x0001 : Word).toNat 2 ≠ seen demo 7 (0x3FFE : Word).toNat 2 :=
  ⟨edges_one, edges_two, by decide, by decide, by decide, by decide⟩
theorem test_witness_Comparisons : Edges 1 ∧ Edges 2 := ⟨edges_one, edges_two⟩
theorem test_witness_SetImmediateByte : Edges 1 := edges_one
theorem test_witness_SetImmediateWord : Edges 2 := edges_two
theorem test_witness_Copies : Edges 1 ∧ Edges 2 := ⟨edges_one, edges_two⟩

/-- Pointers at 0x0100 that hold the last address of one byte (0x3FFF), of two (0x3FFE), and one outside (0x4000). -/
def pointing (p : Word) : State := start [0x20] [(0x0100, [loByte p, hiByte p])]
theorem test_witness_IndirectLoads : Edges 1 ∧ Edges 2 ∧
    (Inside (pointing 0x3FFF) (0x0100 : Word).toNat 2 ∧ Inside (pointing 0x3FFF) (seen (pointing 0x3FFF) 5 (0x0100 : Word).toNat 2) 1 ∧
      ¬ Inside (pointing 0x3FFF) (seen (pointing 0x3FFF) 5 (0x0100 : Word).toNat 2) 2) ∧
    (Inside (pointing 0x3FFE) (seen (pointing 0x3FFE) 5 (0x0100 : Word).toNat 2) 2 ∧ ¬ Inside (pointing 0x3FFE) (0x3FFF : Word).toNat 2) ∧
    (¬ Inside (pointing 0x4000) (seen (pointing 0x4000) 5 (0x0100 : Word).toNat 2) 1) :=
  ⟨edges_one, edges_two, by unfold Inside; decide, by unfold Inside; decide, by unfold Inside; decide⟩
theorem test_witness_IndirectStores : Edges 1 ∧ Edges 2 ∧
    (Inside (pointing 0x3FFF) (0x3FFF : Word).toNat 1 ∧ Inside (pointing 0x3FFF) (0x0100 : Word).toNat 2 ∧
      Inside (pointing 0x3FFF) (seen (pointing 0x3FFF) 5 (0x0100 : Word).toNat 2) 1 ∧
      ¬ Inside (pointing 0x3FFF) (seen (pointing 0x3FFF) 5 (0x0100 : Word).toNat 2) 2) ∧
    (Inside (pointing 0x3FFE) (seen (pointing 0x3FFE) 5 (0x0100 : Word).toNat 2) 2) ∧
    (¬ Inside (pointing 0x4000) (seen (pointing 0x4000) 5 (0x0100 : Word).toNat 2) 1) :=
  ⟨edges_one, edges_two, by unfold Inside; decide, by unfold Inside; decide, by unfold Inside; decide⟩

/-- The last clauses: a NOP at the last byte of a small memory, and of the largest. -/
theorem test_witness_NopAdvancesOnly :
    (Runnable demo ∧ demo.mem.ip.toNat < demo.mem.params.memSize ∧ demo.mem.byteAt demo.mem.ip.toNat = 0x20) ∧
    (let s := readyAt 0x4000 0x3FFF [(0x3FFF, [0x20])]
     Runnable s ∧ s.mem.ip.toNat + 1 = s.mem.params.memSize ∧ s.mem.byteAt s.mem.ip.toNat = 0x20 ∧ s.mem.params.memSize < 65536) ∧
    (let s := readyAt 0x10000 0xFFFF [(0xFFFF, [0x20])]
     Runnable s ∧ s.mem.ip.toNat + 1 = s.mem.params.memSize ∧ s.mem.byteAt s.mem.ip.toNat = 0x20 ∧ s.mem.params.memSize = 65536) :=
  ⟨⟨runnable_readyAt (by decide), by decide, by decide⟩, ⟨runnable_readyAt (by decide), by decide, by decide, by decide⟩,
    runnable_readyAt (by decide), by decide, by decide, by decide⟩
theorem test_witness_IpSlotAsOperand : 2 ≤ (2 : Word).toNat ∧ Inside demo (2 : Word).toNat 2 ∧ 2 ≤ demo.mem.params.memSize ∧
    2 ≤ (0x3FFE : Word).toNat ∧ Inside demo (0x3FFE : Word).toNat 2 ∧ 2 ≤ (readyAt 2 0 []).mem.params.memSize ∧
    3 ≤ (readyAt 3 0 []).mem.params.memSize := by unfold Inside; decide

theorem test_witness_ResetValues : [2, 0, 0x20].length = (readyAt 3 2 []).mem.params.memSize := by decide
/-- The last clause: from Halted, a reset that ends Ready. -/
theorem test_witness_ResetInstallsImage : [2, 0, 0x20].length = (readyAt 3 2 []).mem.params.memSize ∧ 2 < [2, 0, 0x20].length ∧
    (haltedBy (readyAt 3 1 []) .divisionByZero).mem.params = (readyAt 3 2 []).mem.params ∧
    (haltedBy (readyAt 3 1 []) .divisionByZero).run = .halted ∧
    (transact (.reset [2, 0, 0x20]) (haltedBy (readyAt 3 1 []) .divisionByZero)).1.run = .ready := by decide
theorem test_witness_SnapshotRestores : demo.Inv ∧ demo.run = .ready ∧ (haltedBy demo .divisionByZero).mem.params = demo.mem.params :=
  ⟨demo_inv, rfl, rfl⟩
theorem test_witness_ResetRepeatsFailure : State.reset.Inv ∧ State.reset.run = .ready ∧
    ∃ t, step State.reset = .next t ∧ t.run = .halted :=
  ⟨⟨by decide, by decide, by decide, trivial⟩, rfl, _, rfl, rfl⟩
theorem test_witness_LoadedInstructionRuns : Runnable demo ∧ 2 ≤ (2 : Word).toNat ∧ 2 ≤ (0x3FFD : Word).toNat ∧
    (0x3FFD : Word).toNat + (Instr.jumpV 0x0010).width ≤ demo.mem.params.memSize :=
  ⟨runnable_readyAt (by decide), by decide⟩
theorem test_witness_HostWriteThenRead : 0x3FFE + [(1 : Byte), 2].length ≤ demo.mem.params.memSize ∧
    (0x3FFD < 0x3FFE ∨ 0x3FFE + 2 ≤ 0x3FFD) ∧ demo.mem.params.memSize < 0x3FFF + [(1 : Byte), 2].length := by decide
theorem test_witness_TransactionsKeepInvariant : demo.Inv := demo_inv

/-- Two states with one memory, Ready and Halted. -/
theorem test_witness_DisassemblerChangesNothing : (haltedBy demo .divisionByZero).mem = demo.mem := rfl
theorem test_witness_WalkUnrolls : listed.params.memSize < 0x4001 ∧ (0x4000 ≤ listed.params.memSize ∧ 0x4000 ≤ 0x4000) ∧
    (0x4000 ≤ listed.params.memSize ∧ 0x3FFF < 0x4000) := by decide
theorem test_witness_CompleteWalks : 0x0002 ≤ 0x000B ∧ 0x000B ≤ listed.params.memSize ∧
    listed.bytes 0x0002 (0x000B - 0x0002) = [Instr.setV 0x0100 0x002A, .jumpV 0x0010, .nop].flatMap encode := by decide
/-- Two memories that differ, but not in the range. -/
theorem test_witness_WalkReadsOnlyItsRange : listed.params.memSize = demo.mem.params.memSize ∧ listed ≠ demo.mem ∧
    ∀ a, 0x0010 ≤ a → a < 0x0012 → listed.byteAt a = demo.mem.byteAt a :=
  ⟨rfl, by decide, fun a h h' => by interval_cases a <;> decide⟩
theorem test_witness_TraceLineNamesTheStep : Runnable demo ∧ Runnable (readyAt 0x4000 0x4000 []) ∧
    Runnable (readyAt 0x4000 0x3FFF [(0x3FFF, [0x21])]) ∧ Runnable (readyAt 0x4000 0x3FFA [(0x3FFA, [0x01])]) :=
  ⟨runnable_readyAt (by decide), runnable_readyAt (by decide), runnable_readyAt (by decide), runnable_readyAt (by decide)⟩

/-- The line, at the last address; the three stops, where the limit is one short, at the tag and past it. -/
theorem test_witness_FormattedLines : 65535 < 65536 ∧
    (let m := memoryOf 0x10000 [(0xFFFF, [0x20])]
     0xFFFF < 65536 ∧ 0xFFFF + (encode .nop).length ≤ 0x10000 ∧ m.bytes 0xFFFF (encode .nop).length = encode .nop ∧
     0xFFFF ≤ 0xFFFF) ∧
    (0x000B < 65536 ∧ 0x000B < 0x000C ∧ (listed.byteAt 0x000B = 0x00 ∨ 0x21 ≤ (listed.byteAt 0x000B).toNat)) ∧
    (0x0002 < 0x0006 ∧ listed.byteAt 0x0002 = (tableRow (.setV 0x0100 0x002A)).1 ∧
      0x0006 < 0x0002 + (encode (.setV 0x0100 0x002A)).length) := by decide
theorem test_witness_StepTransactionReports : (∃ t, step demo = .next t ∧ t.run = .ready) ∧
    (∃ t, step State.reset = .next t ∧ t.run = .halted) ∧ demo.mem.params.Legal :=
  ⟨⟨_, rfl, rfl⟩, ⟨_, rfl, rfl⟩, by decide⟩
theorem test_witness_StatusAndCauseCodes : demo.Inv := demo_inv
theorem test_witness_RunsAndTraces : (∃ t, transact .step demo = (t, .stepped)) ∧
    (∃ t r, transact .step State.reset = (t, .halted r)) ∧ (∃ t, run 2 demo = .next t) :=
  ⟨⟨_, rfl⟩, ⟨_, _, rfl⟩, _, rfl⟩

end Sys2Proof.Tests
end

section
/-! SUPPORT. How a decode that finds no instruction can come about. -/

namespace Sys2Proof

theorem Format.width_le_longest (f : Format) : f.width ≤ longestWidth := by
  cases f <;> decide

/-- A record that does not split has bytes missing (R85). -/
theorem Shape.length_of_readRecord_none {sh : Shape} {bs : List Byte} (h : sh.readRecord bs = none) :
    bs.length + 1 < sh.format.width := by
  cases sh with
  | f0 i => simp [Shape.readRecord] at h
  | f1 make =>
    match bs, h with
    | [], _ | [_], _ => simp [Shape.format, Format.width, Format.fieldCount]
  | f2 make =>
    match bs, h with
    | [], _ | [_], _ | [_, _], _ | [_, _, _], _ => simp [Shape.format, Format.width, Format.fieldCount]
  | f3 make =>
    match bs, h with
    | [], _ | [_], _ | [_, _], _ | [_, _, _], _ | [_, _, _, _], _ | [_, _, _, _, _], _ =>
      simp [Shape.format, Format.width, Format.fieldCount]

theorem decode_eq_empty_iff (bs : List Byte) : decode bs = .empty ↔ bs = [] := by
  unfold decode
  split
  · simp
  · split
    · simp
    · split <;> simp

theorem rom_of_decode_invalidOpcode {bs : List Byte} {tag : Byte} (h : decode bs = .invalidOpcode tag) :
    rom tag = none := by
  unfold decode at h
  split at h
  next => cases h
  next =>
    split at h
    next hrom => cases h; exact hrom
    next => split at h <;> cases h

/-- A truncated instruction has its tag, a width of the table, and fewer bytes than that (R85). -/
theorem width_of_decode_truncated {bs : List Byte} {tag : Byte} {w : Nat} (h : decode bs = .truncated tag w) :
    1 ≤ bs.length ∧ bs.length < w ∧ w ≤ longestWidth := by
  unfold decode at h
  split at h
  next => cases h
  next =>
    split at h
    next => cases h
    next sh _ =>
      split at h
      next => cases h
      next hrec =>
        cases h
        exact ⟨by simp, Shape.length_of_readRecord_none hrec, Format.width_le_longest _⟩

end Sys2Proof
end

section
/-! SUPPORT. Writes outside the IP slot, and the memory an effect sees. -/

namespace Sys2Proof.Machine

open Sys2Proof.Claims

theorem Memory.byteAt_storeValue_outside (m : Memory) {a n x : Nat} (v : Nat) (hx : x < a ∨ a + n ≤ x) :
    (m.storeValue a n v).byteAt x = m.byteAt x := by
  rw [Memory.byteAt_storeValue, if_neg (by omega)]

theorem Memory.byteAt_setIp_outside (m : Memory) (w : Word) {x : Nat} (hx : 2 ≤ x) :
    (m.setIp w).byteAt x = m.byteAt x := by
  rw [Memory.byteAt_setIp, if_neg (by omega), if_neg (by omega)]

theorem Memory.byteAt_advance_outside (m : Memory) (f : Format) {x : Nat} (hx : 2 ≤ x) :
    (m.advance f).byteAt x = m.byteAt x :=
  Memory.byteAt_setIp_outside m _ hx

theorem seenByte_eq_byteAt_advance (s : State) (f : Format) (a : Nat) :
    seenByte s f.width a = (s.mem.advance f).byteAt a :=
  (Memory.byteAt_advance s.mem f a).symm

/-- The value the statements say an effect sees is the one it reads from the advanced memory (R91). -/
theorem seen_eq_valueAt_advance (s : State) {f : Format} {w : Nat} (hw : f.width = w) (n : Nat) :
    ∀ a, seen s w a n = (s.mem.advance f).valueAt a n := by
  subst hw
  induction n with
  | zero => intro a; rfl
  | succ n ih => intro a; rw [seen, seenByte_eq_byteAt_advance, ih]; rfl

end Sys2Proof.Machine
end

section
/-! SUPPORT. How each common effect can end: with one write at a known place, or with a truthful failure (R15, R28, R46). -/

namespace Sys2Proof.Machine

open Sys2Proof.Claims

/-- An effect ends in a memory with the property `P`, or in a failure that can happen on this machine. -/
def Ends (p : Config.Params) (P : Memory → Prop) : Except Failure Memory → Prop
  | .ok m => P m
  | .error c => c.Truthful p

/-- `m'` is `m` after at most a write of the IP, when there is no place to store to, and after one write of the place
otherwise. -/
def WritesAt (m : Memory) : Option (Nat × Nat) → Memory → Prop
  | none, m' => m' = m ∨ ∃ w, m' = m.setIp w
  | some (a, n), m' => (n = 1 ∨ n = 2) ∧ a + n ≤ m.size ∧ ∃ v, m' = m.storeValue a n v

theorem WritesAt.writesOnce {m m' : Memory} {place : Option (Nat × Nat)} (h : WritesAt m place m') :
    WritesOnce m m' := by
  match place, h with
  | none, .inl same => exact .inl same
  | none, .inr moved => exact .inr (.inl moved)
  | some (a, n), ⟨hn, ha, v, hv⟩ => exact .inr (.inr ⟨a, n, v, hn, ha, hv⟩)

theorem WritesAt.byteAt_of_none {m m' : Memory} (h : WritesAt m none m') {x : Nat} (hx : 2 ≤ x) :
    m'.byteAt x = m.byteAt x := by
  obtain rfl | ⟨w, rfl⟩ := h
  · rfl
  · exact Memory.byteAt_setIp_outside m w hx

theorem WritesAt.byteAt_of_some {m m' : Memory} {a n : Nat} (h : WritesAt m (some (a, n)) m') {x : Nat}
    (hx : x < a ∨ a + n ≤ x) : m'.byteAt x = m.byteAt x := by
  obtain ⟨_, _, v, rfl⟩ := h
  exact Memory.byteAt_storeValue_outside m v hx

/-- A bounds check in front of an effect: where it fails, its record is truthful (R28, R164). -/
theorem Ends.checked {m : Memory} {P : Memory → Prop} {a n : Nat} {r : Except Failure Memory}
    (hn : n = 1 ∨ n = 2) (ha : a < 65536) (h : a + n ≤ m.size → Ends m.params P r) :
    Ends m.params P (if m.size < a + n then .error (.outOfBounds a n) else r) := by
  split
  next out => exact ⟨by omega, by omega, by omega, out⟩
  next inside => exact h (by omega)

section Families

variable {n : Nat} (hn : n = 1 ∨ n = 2) (m : Memory)
include hn

theorem binOp_ends (f : Nat → Nat → Int) (a b r : Word) :
    Ends m.params (WritesAt m (some (r.toNat, n))) (binOp n f a b r m) := by
  rw [binOp_eq]
  exact .checked hn a.isLt fun _ => .checked hn b.isLt fun _ => .checked hn r.isLt fun inside =>
    ⟨hn, inside, _, rfl⟩

theorem divOp_ends (a b r : Word) :
    Ends m.params (WritesAt m (some (r.toNat, n))) (divOp n a b r m) := by
  rw [divOp_eq]
  refine .checked hn a.isLt fun _ => .checked hn b.isLt fun _ => .checked hn r.isLt fun inside => ?_
  split
  · trivial
  · exact ⟨hn, inside, _, rfl⟩

theorem compareOp_ends (a b r : Word) :
    Ends m.params (WritesAt m (some (r.toNat, n))) (compareOp n a b r m) := by
  rw [compareOp_eq]
  exact .checked hn a.isLt fun _ => .checked hn b.isLt fun _ => .checked hn r.isLt fun inside =>
    ⟨hn, inside, _, rfl⟩

theorem notOp_ends (inp r : Word) :
    Ends m.params (WritesAt m (some (r.toNat, n))) (notOp n inp r m) := by
  rw [notOp_eq]
  exact .checked hn inp.isLt fun _ => .checked hn r.isLt fun inside => ⟨hn, inside, _, rfl⟩

theorem shiftOp_ends (f : Nat → Nat → Nat) (inp bits r : Word) :
    Ends m.params (WritesAt m (some (r.toNat, n))) (shiftOp n f inp bits r m) := by
  rw [shiftOp_eq]
  refine .checked hn inp.isLt fun _ => .checked hn r.isLt fun inside => ?_
  split
  next large => exact show 8 < bits.toNat by omega
  next => exact ⟨hn, inside, _, rfl⟩

theorem cjumpOp_ends (a b t : Word) : Ends m.params (WritesAt m none) (cjumpOp n a b t m) := by
  rw [cjumpOp_eq]
  refine .checked hn a.isLt fun _ => .checked hn b.isLt fun _ => ?_
  split
  · exact .inr ⟨t, rfl⟩
  · exact .inl rfl

theorem storeOp_ends (a : Word) (v : Nat) :
    Ends m.params (WritesAt m (some (a.toNat, n))) (storeOp n a v m) := by
  rw [storeOp_eq]
  exact .checked hn a.isLt fun inside => ⟨hn, inside, v, rfl⟩

theorem copyOp_ends (src dst : Word) :
    Ends m.params (WritesAt m (some (dst.toNat, n))) (copyOp n src dst m) := by
  rw [copyOp_eq]
  exact .checked hn src.isLt fun _ => .checked hn dst.isLt fun inside => ⟨hn, inside, _, rfl⟩

theorem getOp_ends (fromP dst : Word) :
    Ends m.params (WritesAt m (some (dst.toNat, n))) (getOp n fromP dst m) := by
  rw [getOp_eq]
  exact .checked (.inr rfl) fromP.isLt fun _ => .checked hn (m.valueAt_lt _ 2) fun _ =>
    .checked hn dst.isLt fun inside => ⟨hn, inside, _, rfl⟩

theorem setOp_ends (src toP : Word) :
    Ends m.params (WritesAt m (some (m.valueAt toP.toNat 2, n))) (setOp n src toP m) := by
  rw [setOp_eq]
  exact .checked hn src.isLt fun _ => .checked (.inr rfl) toP.isLt fun _ =>
    .checked hn (m.valueAt_lt _ 2) fun inside => ⟨hn, inside, _, rfl⟩

end Families

theorem jumpThroughOp_ends (a : Word) (m : Memory) : Ends m.params (WritesAt m none) (jumpThroughOp a m) := by
  rw [jumpThroughOp_eq]
  exact .checked (.inr rfl) a.isLt fun _ => .inr ⟨_, rfl⟩

/-- Every effect stores where the statements say it does, or fails truthfully: one line per family and operand width. -/
theorem effectOf_ends (s : State) (i : Instr) :
    Ends s.mem.params (WritesAt (s.mem.advance i.row.format) (storesTo s i))
      (effectOf i (s.mem.advance i.row.format)) := by
  rw [← Memory.advance_params s.mem i.row.format]
  cases i with
  | add a b r | sub a b r | mul a b r | and a b r | or a b r | xor a b r => exact binOp_ends (.inl rfl) _ _ a b r
  | addW a b r | subW a b r | mulW a b r | andW a b r | orW a b r | xorW a b r =>
    exact binOp_ends (.inr rfl) _ _ a b r
  | div a b r => exact divOp_ends (.inl rfl) _ a b r
  | divW a b r => exact divOp_ends (.inr rfl) _ a b r
  | not inp r => exact notOp_ends (.inl rfl) _ inp r
  | lshift inp bits r | rshift inp bits r => exact shiftOp_ends (.inl rfl) _ _ inp bits r
  | jumpV addr => exact .inr ⟨addr, rfl⟩
  | jump addr => exact jumpThroughOp_ends addr _
  | cjump a b addr => exact cjumpOp_ends (.inl rfl) _ a b addr
  | cjumpW a b addr => exact cjumpOp_ends (.inr rfl) _ a b addr
  | cmp a b r => exact compareOp_ends (.inl rfl) _ a b r
  | cmpW a b r => exact compareOp_ends (.inr rfl) _ a b r
  | setV addr value => exact storeOp_ends (.inl rfl) _ addr _
  | setVW addr value => exact storeOp_ends (.inr rfl) _ addr _
  | copy src dst => exact copyOp_ends (.inl rfl) _ src dst
  | copyW src dst => exact copyOp_ends (.inr rfl) _ src dst
  | get fromP dst => exact getOp_ends (.inl rfl) _ fromP dst
  | getW fromP dst => exact getOp_ends (.inr rfl) _ fromP dst
  | set src toP =>
    rw [storesTo, seen_eq_valueAt_advance s (show Format.f2.width = 5 from rfl)]
    exact setOp_ends (.inl rfl) _ src toP
  | setW src toP =>
    rw [storesTo, seen_eq_valueAt_advance s (show Format.f2.width = 5 from rfl)]
    exact setOp_ends (.inr rfl) _ src toP
  | nop => exact .inl rfl

/-- All that an instruction can do: commit one write to the advanced memory, or halt with a truthful record. -/
theorem exec_writesAt_or_fails {i : Instr} {s t : State} (h : exec i s = .next t) :
    (∃ m, WritesAt (s.mem.advance i.row.format) (storesTo s i) m ∧ t = State.committed m) ∨
      ∃ c, c.Truthful s.mem.params ∧ t = s.takeFailure c := by
  have ends := effectOf_ends s i
  obtain ⟨m, hm, rfl⟩ | ⟨c, hc, rfl⟩ := exec_cases h
  · rw [hm] at ends
    exact .inl ⟨m, ends, rfl⟩
  · rw [hc] at ends
    exact .inr ⟨c, ends, rfl⟩

/-- The operand width of an instruction that stores is one or two bytes (R65). -/
theorem storesTo_size {s : State} {i : Instr} {a n : Nat} (h : storesTo s i = some (a, n)) : n = 1 ∨ n = 2 := by
  cases i with
  | jumpV | jump | cjump | cjumpW | nop => cases h
  | add | sub | mul | div | and | or | xor | not | lshift | rshift | cmp | setV | copy | get | set =>
    exact .inl (Prod.mk.inj (Option.some.inj h)).2.symm
  | addW | subW | mulW | divW | andW | orW | xorW | cmpW | setVW | copyW | getW | setW =>
    exact .inr (Prod.mk.inj (Option.some.inj h)).2.symm

end Sys2Proof.Machine
end

section
/-! The invariant of the machine along a step (R8, R21, R22, R28, R37), and the frame of an instruction (R15, R46). -/

namespace Sys2Proof.Machine

open Sys2Proof.Claims

/-- A failure of the fetch records an access that leaves memory or a tag outside the table (R83 to R85). -/
theorem fetch_error_truthful {m : Memory} {c : Failure} (h : fetch m = .error c) : c.Truthful m.params := by
  have ip_lt : m.ip.toNat < 65536 := m.ip.isLt
  have longest : longestWidth = 7 := rfl
  have size_eq : m.size = m.params.memSize := rfl
  have view_length : (m.bytes m.ip.toNat (min longestWidth (m.size - m.ip.toNat))).length =
      min longestWidth (m.size - m.ip.toNat) := Memory.bytes_length ..
  obtain ⟨i, _, _, hf⟩ | ⟨tag, hd, hf⟩ | ⟨tag, w, hd, hf⟩ | ⟨hd, hf⟩ := fetch_cases m
  · cases hf.symm.trans h
  · cases hf.symm.trans h
    exact rom_of_decode_invalidOpcode hd
  · cases hf.symm.trans h
    obtain ⟨tag_there, cut, width_le⟩ := width_of_decode_truncated hd
    exact ⟨by omega, by omega, by omega, by omega⟩
  · cases hf.symm.trans h
    have none_there := congrArg List.length ((decode_eq_empty_iff _).mp hd)
    rw [view_length, List.length_nil] at none_there
    exact ⟨by omega, by omega, by omega, by omega⟩

theorem State.committed_inv {m : Memory} (hl : m.params.Legal) (hm : m.wf) : (State.committed m).Inv :=
  ⟨hl, hm, by simp, trivial⟩

/-- Halt entry keeps the invariant when its failure can happen (R163). -/
theorem State.takeFailure_inv {s : State} (hs : s.Inv) {c : Failure} (hc : c.Truthful s.mem.params) :
    (s.takeFailure c).Inv :=
  ⟨hs.legal, hs.memory, by simp, hc⟩

theorem exec_params {i : Instr} {s t : State} (h : exec i s = .next t) : t.mem.params = s.mem.params := by
  obtain ⟨m, written, rfl⟩ | ⟨c, _, rfl⟩ := exec_writesAt_or_fails h
  · exact written.writesOnce.params.trans (Memory.advance_params _ _)
  · rfl

theorem exec_inv {i : Instr} {s t : State} (hs : s.Inv) (h : exec i s = .next t) : t.Inv := by
  have params_same := exec_params h
  obtain ⟨m, written, rfl⟩ | ⟨c, truthful, rfl⟩ := exec_writesAt_or_fails h
  · have two_le : 2 ≤ s.mem.size := hs.legal.1
    have advanced_wf := Memory.wf_advance hs.memory two_le i.row.format
    refine State.committed_inv (params_same ▸ hs.legal) (written.writesOnce.wf advanced_wf ?_)
    rwa [Memory.size, Memory.advance_params]
  · exact State.takeFailure_inv hs truthful

/-- Outside the IP slot an instruction changes nothing when it stores nothing, and nothing outside its place otherwise. -/
theorem exec_byteAt_outside {i : Instr} {s t : State} (h : exec i s = .next t) {x : Nat} (hx : 2 ≤ x)
    (apart : ∀ a n, storesTo s i = some (a, n) → x < a ∨ a + n ≤ x) : t.mem.byteAt x = s.mem.byteAt x := by
  obtain ⟨m, written, rfl⟩ | ⟨c, _, rfl⟩ := exec_writesAt_or_fails h
  · rw [← Memory.byteAt_advance_outside s.mem i.row.format hx]
    cases place : storesTo s i with
    | none => exact (place ▸ written).byteAt_of_none hx
    | some p => exact (place ▸ written).byteAt_of_some (apart p.1 p.2 place)
  · rfl

/-- Settles O21: a step does nothing, runs an instruction (`exec_inv`), or halts at fetch with a truthful record. -/
theorem stepKeepsInvariant : Obligations.StepKeepsInvariant := by
  intro s t hs h
  obtain ⟨_, rfl⟩ | ⟨_, _, i, _, hexec⟩ | ⟨_, _, c, hfetch, rfl⟩ := step_cases h
  · exact ⟨hs, rfl⟩
  · exact ⟨exec_inv hs hexec, exec_params hexec⟩
  · exact ⟨State.takeFailure_inv hs (fetch_error_truthful hfetch), rfl⟩

/-- Settles O23, from the one write an instruction commits (`exec_writesAt_or_fails`). -/
theorem oneWriteFrame : Obligations.OneWriteFrame := by
  intro s t i h
  refine ⟨exec_params h, fun x hx stores_none => ?_, fun x a n hx stores_some apart => ?_, fun a n => storesTo_size⟩
  · exact exec_byteAt_outside h hx fun a n stores => by simp [stores_none] at stores
  · refine exec_byteAt_outside h hx fun a' n' stores => ?_
    cases stores_some.symm.trans stores
    exact apart

end Sys2Proof.Machine
end

section
/-! SUPPORT. A canonical memory is determined by its bytes (R21, R37), and the bytes of a memory as a string. -/

namespace Sys2Proof.Machine

theorem cellAt_of_mem {cs : List Host.Cell} (rising : cs.Pairwise (fun c d => c.1 < d.1)) {c : Host.Cell}
    (hc : c ∈ cs) : cellAt c.1 cs = c.2 := by
  induction cs with
  | nil => cases hc
  | cons d rest ih =>
    obtain ⟨d_below, rest_rising⟩ := List.pairwise_cons.mp rising
    rw [cellAt]
    rcases List.mem_cons.mp hc with rfl | hc
    · exact if_pos rfl
    · rw [if_neg (d_below c hc).ne]
      exact ih rest_rising hc

theorem mem_of_cellAt_ne_blank {cs : List Host.Cell} {a : Nat} (h : cellAt a cs ≠ blankByte) :
    (a, cellAt a cs) ∈ cs := by
  induction cs with
  | nil => exact absurd rfl h
  | cons d rest ih =>
    rw [cellAt] at h ⊢
    split at h
    next here => rw [if_pos here, ← here]; exact List.mem_cons_self
    next elsewhere => rw [if_neg elsewhere]; exact List.mem_cons_of_mem _ (ih h)

/-- The canonical form lists exactly the bytes that are not blank. -/
theorem Canonical.mem_iff {size : Nat} {cs : List Host.Cell} (h : Canonical size cs) (c : Host.Cell) :
    c ∈ cs ↔ c.2 ≠ blankByte ∧ cellAt c.1 cs = c.2 := by
  constructor
  · intro hc
    exact ⟨(h.2 c hc).1, cellAt_of_mem h.1 hc⟩
  · rintro ⟨not_blank, read⟩
    have listed := mem_of_cellAt_ne_blank (read ▸ not_blank)
    rwa [read] at listed

/-- Canonical lists that read alike have the same members, in the one order that rises. -/
theorem Canonical.eq_of_cellAt_eq {size : Nat} {cs ds : List Host.Cell} (hc : Canonical size cs)
    (hd : Canonical size ds) (reads : ∀ a, cellAt a cs = cellAt a ds) : cs = ds := by
  have same_members : ∀ c, c ∈ cs ↔ c ∈ ds := fun c => by rw [hc.mem_iff, hd.mem_iff, reads]
  have irrefl : Std.Irrefl fun c d : Host.Cell => c.1 < d.1 := ⟨fun c => lt_irrefl c.1⟩
  have antisymm : Std.Antisymm fun c d : Host.Cell => c.1 < d.1 := ⟨fun _ _ h h' => absurd h h'.asymm⟩
  exact hc.1.eq_of_mem_iff hd.1 same_members

theorem Memory.eq_of_byteAt_eq {m m' : Memory} (hm : m.wf) (hm' : m'.wf) (hp : m.params = m'.params)
    (reads : ∀ a, m.byteAt a = m'.byteAt a) : m = m' := by
  obtain ⟨p, cs⟩ := m
  obtain ⟨_, ds⟩ := m'
  obtain rfl : p = _ := hp
  exact congrArg (Memory.mk p) (Canonical.eq_of_cellAt_eq (size := p.memSize) hm hm' reads)

theorem Memory.getElem_bytes (m : Memory) (n : Nat) :
    ∀ (a i : Nat) (h : i < (m.bytes a n).length), (m.bytes a n)[i] = m.byteAt (a + i) := by
  induction n with
  | zero => intro a i h; cases h
  | succ n ih =>
    intro a i h
    cases i with
    | zero => rfl
    | succ i =>
      have next_address : a + 1 + i = a + (i + 1) := by omega
      rw [← next_address]
      exact ih (a + 1) i _

/-- The image a memory was built from is the one it gives back (R181, R185). -/
theorem Memory.image_ofImage {p : Config.Params} {image : List Byte} (h : ImageFits p image) :
    (Memory.ofImage p image).image = image := by
  refine List.ext_getElem ((Memory.bytes_length _ _ 0).trans h.symm) fun i _ inside => ?_
  calc (Memory.ofImage p image).image[i]
    _ = (Memory.ofImage p image).byteAt (0 + i) := Memory.getElem_bytes _ _ 0 i _
    _ = image.getD i 0 := by rw [Nat.zero_add, Memory.byteAt_ofImage]
    _ = image[i] := List.getD_eq_getElem image 0 inside

end Sys2Proof.Machine
end

section
/-! SUPPORT. The instruction pointer as two bytes (R24), a step of a Halted machine (R81), what a transaction of the host does
to the state (R171), and the invariant at construction and after a change of memory. -/

namespace Sys2Proof.Machine

theorem Memory.ip_toNat_eq_bytes (m : Memory) :
    m.ip.toNat = (m.byteAt 0).toNat + 256 * (m.byteAt 1).toNat :=
  m.ip_toNat

theorem memWrite_ip {m m' : Memory} {v : Word} (h : memWrite m 0 2 v.toNat = .ok m') : m'.ip = v := by
  obtain ⟨_, rfl⟩ := memWrite_ok h
  exact Memory.setIp_ip m v

theorem step_halted {s : State} (h : s.run = .halted) : step s = .next s := by
  simp only [step, h]

theorem run_succ_of_step_halted {s t : State} (h : step s = .next t) (ht : t.run = .halted) (k : Nat) :
    run (k + 1) s = .next t := by
  simp only [run, h, ht]

theorem transact_step {s t : State} (h : step s = .next t) : transact .step s = (t, stepResponse t) := by
  simp only [transact, h]

theorem stepResponse_halted {s : State} (h : s.run = .halted) : stepResponse s = .halted s.halt := by
  simp only [stepResponse, h]

theorem transact_reset {s : State} {image : List Byte} (h : ImageFits s.mem.params image) :
    transact (.reset image) s = (s.resetWith image, .none) :=
  if_pos h

/-- All that a transaction can do to the state (R171): nothing, a reset with an image that fits, a host write inside memory,
or a step. -/
theorem transact_cases (tr : Transaction) (s : State) :
    (transact tr s).1 = s ∨
    (∃ image, tr = .reset image ∧ ImageFits s.mem.params image ∧ (transact tr s).1 = s.resetWith image) ∨
    (∃ a bs, tr = .hostWrite a bs ∧ a + bs.length ≤ s.mem.size ∧
      (transact tr s).1 = { s with mem := s.mem.storeBytes a bs }) ∨
    (tr = .step ∧ step s = .next (transact tr s).1) := by
  cases tr with
  | reset image =>
    by_cases fits : ImageFits s.mem.params image
    · exact .inr (.inl ⟨image, rfl, fits, by rw [transact_reset fits]⟩)
    · exact .inl (congrArg Prod.fst (if_neg fits))
  | hostWrite a bs =>
    by_cases outside : a + bs.length > s.mem.size
    · exact .inl (congrArg Prod.fst (if_pos outside))
    · exact .inr (.inr (.inl ⟨a, bs, rfl, by omega, congrArg Prod.fst (if_neg outside)⟩))
  | hostRead a n => exact .inl (by rw [transact]; split <;> rfl)
  | step =>
    cases h : step s with
    | next t => exact .inr (.inr (.inr ⟨rfl, by rw [transact_step h]⟩))
    | fault r => exact .inl (by simp only [transact, h])
    | refused r => exact .inl (by simp only [transact, h])
  | status => exact .inl rfl
  | formatAt c limit => exact .inl (by rw [transact]; split <;> rfl)
  | disassemble start stop => exact .inl rfl

theorem State.construct_inv {p : Config.Params} (h : p.Legal) : (State.construct p).Inv :=
  State.committed_inv h (State.construct_wf p)

theorem State.resetWith_inv {s : State} (hs : s.Inv) {image : List Byte} (h : ImageFits s.mem.params image) :
    (s.resetWith image).Inv :=
  State.committed_inv hs.legal (Memory.wf_ofImage h)

/-- A host write changes neither the run state nor the halt record, so canonical memory is all there is to keep (R171). -/
theorem State.storeBytes_inv {s : State} (hs : s.Inv) {a : Nat} {bs : List Byte} (h : a + bs.length ≤ s.mem.size) :
    State.Inv { s with mem := s.mem.storeBytes a bs } where
  legal := (Memory.storeBytes_params bs s.mem a).symm ▸ hs.legal
  memory := Memory.wf_storeBytes bs hs.memory h
  runHalt := hs.runHalt
  record := (Memory.storeBytes_params bs s.mem a).symm ▸ hs.record

end Sys2Proof.Machine
end

section
/-! The state: its canonical memory and its IP (R21, R24), construction and reset (R34 to R36), a Halted machine (R27), and the
invariant along the host's transactions (R37, R171). -/

namespace Sys2Proof.Machine

/-- Settles O11: canonical memories list the same cells in the same order (`Canonical.eq_of_cellAt_eq`). -/
theorem canonicalMemoriesAreTheirBytes : Obligations.CanonicalMemoriesAreTheirBytes :=
  fun _ _ hm hm' hp reads => Memory.eq_of_byteAt_eq hm hm' hp reads

/-- Settles O12: the write at address 0 is the write of the IP. -/
theorem ipIsBytesZeroAndOne : Obligations.IpIsBytesZeroAndOne :=
  ⟨Memory.ip_toNat_eq_bytes, fun _ _ _ h => memWrite_ip h⟩

/-- Settles O50, by what a transaction can do (`transact_cases`); its step is O21. -/
theorem transactionsKeepInvariant : Obligations.TransactionsKeepInvariant := by
  intro s tr hs
  obtain same | ⟨image, _, fits, reset⟩ | ⟨a, bs, _, inside, written⟩ | ⟨_, stepped⟩ := transact_cases tr s
  · rw [same]; exact ⟨hs, rfl⟩
  · rw [reset]; exact ⟨State.resetWith_inv hs fits, rfl⟩
  · rw [written]; exact ⟨State.storeBytes_inv hs inside, Memory.storeBytes_params bs s.mem a⟩
  · exact stepKeepsInvariant s _ hs stepped

/-- Settles O19: the step answers the same state, so the transaction reports its record and a run ends there. -/
theorem haltedAbsorbs : Obligations.HaltedAbsorbs := by
  intro s hs
  have stays := step_halted hs
  refine ⟨stays, ?_, run_succ_of_step_halted stays hs⟩
  rw [transact_step stays, stepResponse_halted hs]

/-- Settles O22. -/
theorem resetMeetsInvariant : Obligations.ResetMeetsInvariant :=
  ⟨fun _ legal => State.construct_inv legal, State.construct_inv (by decide)⟩

/-- Settles O44: the IP after construction is the two blank bytes of its slot, and an image is read back (`Memory.image_ofImage`). -/
theorem resetValues : Obligations.ResetValues := by
  refine ⟨fun p => ?_, fun s image fits => ?_⟩
  · have blank : ∀ a, (State.construct p).mem.byteAt a = 0x00 := fun _ => rfl
    refine ⟨blank, BitVec.eq_of_toNat_eq ?_, rfl, rfl⟩
    rw [Memory.ip_toNat_eq_bytes, blank 0, blank 1]
    rfl
  · rw [transact_reset fits]
    exact ⟨Memory.image_ofImage fits, rfl, rfl⟩

end Sys2Proof.Machine
end

section
/-! SUPPORT. The value of a stretch of memory (R39, R43), and what it is after a store (R40, R51). -/

namespace Sys2Proof.Machine

theorem Memory.valueAt_succ (m : Memory) (a n : Nat) :
    m.valueAt a (n + 1) = (m.byteAt a).toNat + 256 * m.valueAt (a + 1) n :=
  rfl

/-- A 16-bit value is its two bytes (R43). -/
theorem Memory.valueAt_two (m : Memory) (a : Nat) :
    m.valueAt a 2 = (m.byteAt a).toNat + 256 * (m.byteAt (a + 1)).toNat :=
  rfl

theorem Memory.valueAt_eq_sum (m : Memory) (n : Nat) :
    ∀ a, m.valueAt a n = ∑ i ∈ Finset.range n, (m.byteAt (a + i)).toNat * 256 ^ i := by
  induction n with
  | zero => intro a; rfl
  | succ n ih =>
    intro a
    have shifted : ∀ i, (m.byteAt (a + (i + 1))).toNat * 256 ^ (i + 1) =
        256 * ((m.byteAt (a + 1 + i)).toNat * 256 ^ i) := fun i => by
      rw [show a + (i + 1) = a + 1 + i by omega, pow_succ']
      exact Nat.mul_left_comm _ _ _
    rw [Memory.valueAt_succ, ih, Finset.sum_range_succ', Finset.mul_sum,
      Finset.sum_congr rfl fun i _ => shifted i]
    simp [Nat.add_comm]

theorem Memory.byteAt_storeValue_inside (m : Memory) (a v : Nat) {n i : Nat} (hi : i < n) :
    (m.storeValue a n v).byteAt (a + i) = BitVec.ofNat 8 (v / 256 ^ i) := by
  rw [Memory.byteAt_storeValue, if_pos (by omega), Nat.add_sub_cancel_left]

/-- A width of `n` bytes, in bits and in bytes. -/
theorem two_pow_bits (n : Nat) : 2 ^ (8 * n) = 256 ^ n :=
  pow_mul 2 8 n

/-- Byte `i` of a value, as the quotient the store computes and as the shift R40 writes. -/
theorem byte_of_value_toNat (v i : Nat) : (BitVec.ofNat 8 (v / 256 ^ i)).toNat = (v >>> (8 * i)) % 256 := by
  rw [BitVec.toNat_ofNat, Nat.shiftRight_eq_div_pow, two_pow_bits]

/-- A byte string stored is the one read back (R41). -/
theorem Memory.bytes_storeBytes (m : Memory) (a : Nat) (bs : List Byte) :
    (m.storeBytes a bs).bytes a bs.length = bs := by
  refine List.ext_getElem (Memory.bytes_length _ _ a) fun i _ inside => ?_
  rw [Memory.getElem_bytes, Memory.byteAt_storeBytes, if_pos (by omega), Nat.add_sub_cancel_left]
  exact List.getD_eq_getElem bs 0 inside

/-- The round trip of a value at any width (R51): the store keeps its `n` low bytes. -/
theorem Memory.valueAt_storeValue (m : Memory) (a n v : Nat) : (m.storeValue a n v).valueAt a n = v % 256 ^ n := by
  have read_back := m.bytes_storeBytes a (leBytes n v)
  rw [leBytes_length] at read_back
  rw [Memory.valueAt, Memory.storeValue, read_back, leValue_leBytes]

theorem Memory.byteAt_storeByte {v : Nat} (hv : v < 256) (m : Memory) (a : Nat) :
    ((m.storeValue a 1 v).byteAt a).toNat = v := by
  rw [Memory.byteAt_storeValue, if_pos (by omega), Nat.sub_self, pow_zero, Nat.div_one, BitVec.toNat_ofNat]
  exact Nat.mod_eq_of_lt hv

/-- A byte stored at `a` is the low half of the 16-bit value at `a` (R43). -/
theorem Memory.valueAt_storeByte_low {v : Nat} (hv : v < 256) (m : Memory) (a : Nat) :
    (m.storeValue a 1 v).valueAt a 2 = v + 256 * (m.byteAt (a + 1)).toNat := by
  rw [Memory.valueAt_two, Memory.byteAt_storeByte hv, Memory.byteAt_storeValue_outside m v (.inr le_rfl)]

/-- A byte stored at `a + 1` is the high half of the 16-bit value at `a` (R43). -/
theorem Memory.valueAt_storeByte_high {v : Nat} (hv : v < 256) (m : Memory) (a : Nat) :
    (m.storeValue (a + 1) 1 v).valueAt a 2 = (m.byteAt a).toNat + 256 * v := by
  rw [Memory.valueAt_two, Memory.byteAt_storeByte hv, Memory.byteAt_storeValue_outside m v (.inl a.lt_succ_self)]

end Sys2Proof.Machine
end

section
/-! Memory access (R39, R40, R43, R51). -/

namespace Sys2Proof.Machine

/-- Settles O7, by `Memory.valueAt_eq_sum`. -/
theorem readIsLittleEndianSum : Obligations.ReadIsLittleEndianSum := by
  intro m a n
  refine ⟨memRead_outside, fun inside => ?_⟩
  rw [memRead_inside inside, Memory.valueAt_eq_sum]

/-- Settles O8: the stored bytes are those of the value (`byte_of_value_toNat`), and no address outside is touched. -/
theorem writeStoresBytes : Obligations.WriteStoresBytes := by
  intro m a n v
  refine ⟨fun outside => memWrite_outside outside v, fun inside =>
    ⟨_, memWrite_inside inside v, Memory.storeValue_params m a n v, fun i hi => ?_, fun x apart => ?_⟩⟩
  · rw [Memory.byteAt_storeValue_inside m a v hi, byte_of_value_toNat]
  · exact Memory.byteAt_storeValue_outside m v apart

/-- Settles O9: the round trip holds at every width (`Memory.valueAt_storeValue`). -/
theorem writeReadRoundTrip : Obligations.WriteReadRoundTrip := by
  intro m a n v _
  refine ⟨fun inside => ⟨_, memWrite_inside inside v, ?_⟩,
    fun outside => ⟨memWrite_outside outside v, memRead_outside outside⟩⟩
  have inside_after : a + n ≤ (m.storeValue a n v).size := by rwa [Memory.size, Memory.storeValue_params]
  rw [memRead_inside inside_after, Memory.valueAt_storeValue, two_pow_bits]

/-- Settles O10: the byte written is one half of each of the two 16-bit values it belongs to. -/
theorem mixedWidthAccess : Obligations.MixedWidthAccess := by
  refine ⟨fun m a inside => ?_, fun m m' a v hv written => ?_, fun m inside => ?_⟩
  · rw [memRead_inside inside, Memory.valueAt_two]
  · obtain ⟨byte_inside, rfl⟩ := memWrite_ok written
    have same_size : (m.storeValue a 1 v).size = m.size := by rw [Memory.size, Memory.storeValue_params]
    refine ⟨fun inside => ?_, fun positive => ?_⟩
    · rw [memRead_inside (inside.trans same_size.ge), Memory.valueAt_storeByte_low hv]
    · obtain ⟨b, rfl⟩ := Nat.exists_eq_add_of_le' positive
      rw [Nat.add_sub_cancel, memRead_inside (by omega), Memory.valueAt_storeByte_high hv]
  · exact ⟨_, memWrite_inside inside 0x1234, m.byteAt_storeValue_inside 0x0100 0x1234 Nat.zero_lt_two,
      m.byteAt_storeValue_inside 0x0100 0x1234 Nat.one_lt_two⟩

end Sys2Proof.Machine
end

section
/-! SUPPORT. The table by tag and the table by instruction are one table (R66), so the decoder and the encoder are inverse to
each other (R58 to R62, R71, R72). -/

namespace Sys2Proof

open Sys2Proof.Claims Sys2Proof.Laws

/-- The row makes this instruction, for some values of its fields. -/
def Shape.Makes : Shape → Instr → Prop
  | .f0 j, i => i = j
  | .f1 make, i => ∃ x, i = make x
  | .f2 make, i => ∃ x y, i = make x y
  | .f3 make, i => ∃ x y z, i = make x y z

/-- Every instruction the row makes is encoded as this tag and its fields in the row's order (R61, R62). -/
def Shape.EncodedUnder : Shape → Byte → Prop
  | .f0 i, tag => encode i = [tag]
  | .f1 make, tag => ∀ x, encode (make x) = [tag, loByte x, hiByte x]
  | .f2 make, tag => ∀ x y, encode (make x y) = bytesF2 tag x y
  | .f3 make, tag => ∀ x y z, encode (make x y z) = bytesF3 tag x y z

/-- The encoder agrees with the decoder's table, row by row. -/
theorem encodedUnder_of_rom {tag : Byte} {sh : Shape} (h : rom tag = some sh) : sh.EncodedUnder tag := by
  unfold rom at h
  split at h
  case h_33 => cases h
  all_goals
    next code =>
      cases h
      obtain ⟨_, rfl⟩ := BitVec.toNat_eq_nat.mp code
      simp only [Shape.EncodedUnder]
      intros
      rfl

/-- The decoder's table has a row for every instruction, under the encoder's tag. -/
theorem rom_row_tag (i : Instr) : ∃ sh, rom i.row.tag = some sh ∧ sh.Makes i := by
  cases i with
  | nop => exact ⟨_, rfl, rfl⟩
  | jumpV x | jump x => exact ⟨_, rfl, x, rfl⟩
  | not x y | setV x y | setVW x y | copy x y | copyW x y | get x y | getW x y | set x y | setW x y =>
    exact ⟨_, rfl, x, y, rfl⟩
  | add x y z | sub x y z | mul x y z | div x y z | and x y z | or x y z | xor x y z | addW x y z | subW x y z
  | mulW x y z | divW x y z | andW x y z | orW x y z | xorW x y z | lshift x y z | rshift x y z | cjump x y z
  | cjumpW x y z | cmp x y z | cmpW x y z =>
    exact ⟨_, rfl, x, y, z, rfl⟩

/-- Splitting a record inverts the encoding of the row's instructions, in both directions. -/
theorem Shape.readRecord_eq_some_iff {sh : Shape} {tag : Byte} (enc : sh.EncodedUnder tag) {bs rest : List Byte}
    {i : Instr} : sh.readRecord bs = some (i, rest) ↔ sh.Makes i ∧ tag :: bs = encode i ++ rest := by
  constructor
  · intro h
    unfold Shape.readRecord at h
    split at h <;> cases h
    case h_1 => exact ⟨rfl, by rw [enc]; rfl⟩
    case h_2 => exact ⟨⟨_, rfl⟩, by simp [enc _]⟩
    case h_3 => exact ⟨⟨_, _, rfl⟩, by simp [enc _ _, bytesF2]⟩
    case h_4 => exact ⟨⟨_, _, _, rfl⟩, by simp [enc _ _ _, bytesF3]⟩
  · rintro ⟨made, same⟩
    cases sh with
    | f0 j =>
      obtain rfl := made
      rw [enc] at same
      cases same
      rfl
    | f1 make =>
      obtain ⟨x, rfl⟩ := made
      rw [enc x] at same
      cases same
      simp [Shape.readRecord]
    | f2 make =>
      obtain ⟨x, y, rfl⟩ := made
      rw [enc x y] at same
      cases same
      simp [Shape.readRecord]
    | f3 make =>
      obtain ⟨x, y, z, rfl⟩ := made
      rw [enc x y z] at same
      cases same
      simp [Shape.readRecord]

theorem decode_cons_of_rom_none {tag : Byte} (h : rom tag = none) (bs : List Byte) :
    decode (tag :: bs) = .invalidOpcode tag := by
  simp only [decode, h]

theorem decode_cons_of_readRecord_none {tag : Byte} {sh : Shape} {bs : List Byte} (h : rom tag = some sh)
    (cut : sh.readRecord bs = none) : decode (tag :: bs) = .truncated tag sh.format.width := by
  simp only [decode, h, cut]

theorem decode_cons_of_readRecord_some {tag : Byte} {sh : Shape} {bs rest : List Byte} {i : Instr}
    (h : rom tag = some sh) (split : sh.readRecord bs = some (i, rest)) : decode (tag :: bs) = .instr i rest := by
  simp only [decode, h, split]

/-- What decodes to an instruction is its encoding and the rest, and nothing else does (R71, R72). -/
theorem decode_eq_instr_iff {bs rest : List Byte} {i : Instr} :
    decode bs = .instr i rest ↔ bs = encode i ++ rest := by
  constructor
  · intro h
    cases bs with
    | nil => cases h
    | cons tag bytes =>
      cases hrom : rom tag with
      | none => cases (decode_cons_of_rom_none hrom bytes).symm.trans h
      | some sh =>
        cases hrec : sh.readRecord bytes with
        | none => cases (decode_cons_of_readRecord_none hrom hrec).symm.trans h
        | some instr_rest =>
          cases (decode_cons_of_readRecord_some hrom hrec).symm.trans h
          obtain ⟨_, same⟩ := (Shape.readRecord_eq_some_iff (encodedUnder_of_rom hrom)).mp hrec
          exact same
  · rintro rfl
    obtain ⟨sh, hrom, made⟩ := rom_row_tag i
    exact decode_cons_of_readRecord_some hrom
      ((Shape.readRecord_eq_some_iff (encodedUnder_of_rom hrom)).mpr ⟨made, rfl⟩)

/-- The invalid tags (R69). -/
theorem rom_eq_none_iff (tag : Byte) : rom tag = none ↔ tag = 0x00 ∨ 0x21 ≤ tag.toNat := by
  have zero_iff : tag = 0x00 ↔ tag.toNat = 0 := BitVec.toNat_inj.symm
  rw [zero_iff]
  unfold rom
  split
  case h_33 => simp only [imp_false, true_iff] at *; omega
  all_goals simp only [reduceCtorEq, false_iff]; omega

theorem encodedWidth (i : Instr) : EncodedWidth.Statement i := by
  cases i
  exacts [EncodedWidth.add .., EncodedWidth.sub .., EncodedWidth.mul .., EncodedWidth.div .., EncodedWidth.and ..,
    EncodedWidth.or .., EncodedWidth.xor .., EncodedWidth.addW .., EncodedWidth.subW .., EncodedWidth.mulW ..,
    EncodedWidth.divW .., EncodedWidth.andW .., EncodedWidth.orW .., EncodedWidth.xorW .., EncodedWidth.not ..,
    EncodedWidth.lshift .., EncodedWidth.rshift .., EncodedWidth.jumpV .., EncodedWidth.jump ..,
    EncodedWidth.cjump .., EncodedWidth.cjumpW .., EncodedWidth.cmp .., EncodedWidth.cmpW .., EncodedWidth.setV ..,
    EncodedWidth.setVW .., EncodedWidth.copy .., EncodedWidth.copyW .., EncodedWidth.get .., EncodedWidth.getW ..,
    EncodedWidth.set .., EncodedWidth.setW .., EncodedWidth.nop]

/-- The width of an instruction is the length of its encoding (R74). -/
theorem encode_length (i : Instr) : (encode i).length = i.width := by
  obtain ⟨length_eq, _⟩ := encodedWidth i
  exact length_eq

/-- An encoding is the tag and two bytes a field (R67). -/
theorem encode_length_eq_fields (i : Instr) : (encode i).length = 1 + 2 * i.row.fields.length := by
  obtain ⟨length_eq, fields_eq⟩ := encodedWidth i
  rw [length_eq, fields_eq]
  rfl

end Sys2Proof
end

section
/-! SUPPORT. Decoding at an address of memory (R75, R83 to R86), and what the stepper and the disassembler make of it (R99). -/

namespace Sys2Proof.Machine

theorem Memory.bytes_add (m : Memory) (n k : Nat) : ∀ a, m.bytes a (n + k) = m.bytes a n ++ m.bytes (a + n) k := by
  induction n with
  | zero => intro a; rw [Nat.zero_add]; rfl
  | succ n ih =>
    intro a
    have next_address : a + 1 + n = a + (n + 1) := by omega
    rw [Nat.add_right_comm, Memory.bytes, ih, next_address]
    rfl

/-- Below the limit the view has its tag (R83). -/
theorem decodeAt_inside {m : Memory} {c limit : Nat} (h : c < limit) :
    decodeAt m c limit = decode (m.byteAt c :: m.bytes (c + 1) (min longestWidth (limit - c) - 1)) := by
  have longest : longestWidth = 7 := rfl
  obtain ⟨k, hk⟩ : ∃ k, min longestWidth (limit - c) = k + 1 := ⟨min longestWidth (limit - c) - 1, by omega⟩
  rw [decodeAt, hk]
  rfl

theorem decodeAt_outside {m : Memory} {c limit : Nat} (h : limit ≤ c) : decodeAt m c limit = .empty := by
  rw [decodeAt, Nat.sub_eq_zero_of_le h]
  rfl

theorem decodeAt_of_rom_none {m : Memory} {c limit : Nat} (h : c < limit) (invalid : rom (m.byteAt c) = none) :
    decodeAt m c limit = .invalidOpcode (m.byteAt c) := by
  rw [decodeAt_inside h, decode_cons_of_rom_none invalid]

/-- An instruction is decoded at an address exactly when its encoding stands there below the limit, and the rest of the view
is what follows it (R71, R75). -/
theorem decodeAt_eq_instr_iff {m : Memory} {c limit : Nat} {i : Instr} {rest : List Byte} :
    decodeAt m c limit = .instr i rest ↔
      c + i.width ≤ limit ∧ m.bytes c i.width = encode i ∧
        rest = m.bytes (c + i.width) (min longestWidth (limit - c) - i.width) := by
  have width_le : i.width ≤ longestWidth := Format.width_le_longest _
  have one_le : 1 ≤ i.width := Nat.le_add_right ..
  have view_split (fits : c + i.width ≤ limit) : m.bytes c (min longestWidth (limit - c)) =
      m.bytes c i.width ++ m.bytes (c + i.width) (min longestWidth (limit - c) - i.width) := by
    rw [← Memory.bytes_add, Nat.add_sub_cancel' (by omega)]
  rw [decodeAt, decode_eq_instr_iff]
  constructor
  · intro view
    have fits : c + i.width ≤ limit := by
      have lengths := congrArg List.length view
      rw [Memory.bytes_length, List.length_append, encode_length] at lengths
      omega
    have same_length : (m.bytes c i.width).length = (encode i).length := by
      rw [Memory.bytes_length, encode_length]
    obtain ⟨there, follows⟩ := List.append_inj ((view_split fits).symm.trans view) same_length
    exact ⟨fits, there, follows.symm⟩
  · rintro ⟨fits, there, rfl⟩
    rw [view_split fits, there]

/-- A record cut by the limit is one whose width reaches past it (R85). -/
theorem decodeAt_of_record_cut {m : Memory} {c limit : Nat} {sh : Shape} (h : c < limit)
    (hrom : rom (m.byteAt c) = some sh)
    (cut : sh.readRecord (m.bytes (c + 1) (min longestWidth (limit - c) - 1)) = none) :
    limit < c + sh.format.width ∧ decodeAt m c limit = .truncated (m.byteAt c) sh.format.width := by
  have too_short := Shape.length_of_readRecord_none cut
  have width_le := Format.width_le_longest sh.format
  rw [Memory.bytes_length] at too_short
  exact ⟨by omega, (decodeAt_inside h).trans (decode_cons_of_readRecord_none hrom cut)⟩

theorem fetch_of_decodeAt_instr {m : Memory} {i : Instr} {rest : List Byte}
    (h : decodeAt m m.ip.toNat m.size = .instr i rest) : fetch m = .ok i := by
  simp only [fetch, h]

theorem fetch_of_decodeAt_invalidOpcode {m : Memory} {tag : Byte}
    (h : decodeAt m m.ip.toNat m.size = .invalidOpcode tag) : fetch m = .error (.invalidOpcode tag) := by
  simp only [fetch, h]

theorem step_of_fetch_ok {s : State} (hr : s.run = .ready) (hl : s.mem.params.Legal) {i : Instr}
    (h : fetch s.mem = .ok i) : step s = exec i s := by
  rw [step_ready hr hl, h]

theorem step_of_fetch_error {s : State} (hr : s.run = .ready) (hl : s.mem.params.Legal) {e : Failure}
    (h : fetch s.mem = .error e) : step s = .next (s.takeFailure e) := by
  rw [step_ready hr hl, h]

theorem formatAt_of_decodeAt_instr {m : Memory} {c limit : Nat} {i : Instr} {rest : List Byte}
    (h : decodeAt m c limit = .instr i rest) : formatAt m c limit = .line (render c i) i.width := by
  simp only [formatAt, h]

theorem formatAt_of_decodeAt_invalidOpcode {m : Memory} {c limit : Nat} {tag : Byte}
    (h : decodeAt m c limit = .invalidOpcode tag) :
    formatAt m c limit = .stop (hex4 c ++ ": unrecognised code " ++ hex2 tag) (.unrecognised c tag) := by
  simp only [formatAt, h]

/-- A walk whose first format stops has that one line (R148). -/
theorem disassemble_of_formatAt_stop {m : Memory} {start stop : Nat} {text : String} {status : WalkStatus}
    (nonempty : start < stop) (inside : stop ≤ m.size) (h : formatAt m start stop = .stop text status) :
    disassemble m start stop = ([text], status) := by
  obtain ⟨fuel, hfuel⟩ : ∃ fuel, stop - start = fuel + 1 := ⟨stop - start - 1, by omega⟩
  rw [disassemble, if_neg (by omega), hfuel, walk, if_pos nonempty, h]

/-- A Ready step on an invalid tag halts with it (R69, R84). -/
theorem step_of_rom_none {s : State} (hs : Claims.Runnable s) (inside : s.mem.ip.toNat < s.mem.size)
    (invalid : rom (s.mem.byteAt s.mem.ip.toNat) = none) :
    step s = .next (Claims.haltedBy s (.invalidOpcode (s.mem.byteAt s.mem.ip.toNat))) := by
  obtain ⟨ready, legal⟩ := hs
  exact step_of_fetch_error ready legal (fetch_of_decodeAt_invalidOpcode (decodeAt_of_rom_none inside invalid))

end Sys2Proof.Machine
end

section
/-! SUPPORT. The IP after an instruction that leaves its slot alone (R87), and a jump of an instruction to itself (R78). -/

namespace Sys2Proof.Machine

open Sys2Proof.Claims

theorem Memory.ip_eq_fieldOf (m : Memory) : m.ip = fieldOf (m.byteAt 0) (m.byteAt 1) :=
  BitVec.eq_of_toNat_eq (m.ip_toNat_eq_bytes.trans (fieldOf_toNat _ _).symm)

/-- The IP depends on the two bytes of its slot alone (R24). -/
theorem Memory.ip_congr {m m' : Memory} (h : ∀ x < 2, m.byteAt x = m'.byteAt x) : m.ip = m'.ip := by
  rw [Memory.ip_eq_fieldOf, Memory.ip_eq_fieldOf, h 0 (by omega), h 1 (by omega)]

/-- Writing the IP of a memory over the advanced one gives that memory back. -/
theorem Memory.setIp_advance_self {m : Memory} (hm : m.wf) (hs : 2 ≤ m.size) (f : Format) :
    (m.advance f).setIp m.ip = m := by
  have advanced_wf := Memory.wf_advance hm hs f
  refine Memory.eq_of_byteAt_eq (Memory.wf_setIp advanced_wf ?_ _) hm ?_ fun x => ?_
  · rwa [Memory.size, Memory.advance_params]
  · rw [Memory.setIp_params, Memory.advance_params]
  · rw [Memory.byteAt_setIp]
    split
    next h => rw [Memory.ip_eq_fieldOf, loByte_fieldOf, h]
    next h0 =>
      split
      next h => rw [Memory.ip_eq_fieldOf, hiByte_fieldOf, h]
      next h1 => exact Memory.byteAt_advance_outside m f (by omega)

/-- NOP is the only instruction that neither transfers control nor stores (R76). -/
theorem eq_nop_of_storesTo_none {s : State} {i : Instr} (stays : isTransfer i = false) (stores : storesTo s i = none) :
    i = .nop := by
  cases i with
  | nop => rfl
  | jumpV | jump | cjump | cjumpW => cases stays
  | add | sub | mul | div | and | or | xor | addW | subW | mulW | divW | andW | orW | xorW | not | lshift | rshift | cmp
  | cmpW | setV | setVW | copy | copyW | get | getW | set | setW => cases stores

/-- After a completed instruction that transfers no control and stores nothing in the slot, the IP is the advanced one (R87). -/
theorem exec_ip_of_not_transfer {i : Instr} {s t : State} (stays : isTransfer i = false)
    (outside : ∀ a n, storesTo s i = some (a, n) → 2 ≤ a) (h : exec i s = .next t) (ready : t.run = .ready) :
    t.mem.ip = nextIp s i.width := by
  cases place : storesTo s i with
  | none =>
    obtain rfl := eq_nop_of_storesTo_none stays place
    cases h
    exact Memory.advance_ip s.mem .f0
  | some p =>
    obtain ⟨m, written, rfl⟩ | ⟨c, _, rfl⟩ := exec_writesAt_or_fails h
    · have slot_kept : ∀ x < 2, m.byteAt x = (s.mem.advance i.row.format).byteAt x := fun x hx =>
        (place ▸ written).byteAt_of_some (.inl (hx.trans_le (outside p.1 p.2 place)))
      exact (Memory.ip_congr slot_kept).trans (Memory.advance_ip s.mem i.row.format)
    · cases ready

/-- A jump to the IP it is executed at leaves a Ready machine as it was (R78). -/
theorem exec_spin {s : State} (hs : s.Inv) (ready : s.run = .ready) : exec (spin s.mem.ip) s = .next s := by
  have no_record : s.halt = .none := hs.runHalt.mp ready
  calc exec (spin s.mem.ip) s
    _ = .next (State.committed ((s.mem.advance .f1).setIp s.mem.ip)) := State.runEffect_ok (e := jumpToOp s.mem.ip) rfl
    _ = .next (State.committed s.mem) := by rw [Memory.setIp_advance_self hs.memory hs.legal.1]
    _ = .next s := by rw [State.committed, ← ready, ← no_record]

end Sys2Proof.Machine
end

section
/-! The encoding: decoder and encoder are inverse (R71, R72), the invalid tags (R69), the outcomes of a decode (R75), the width
law (R74) and the pseudo-instructions (R78). -/

namespace Sys2Proof.Machine

/-- Settles O1, the one direction of `decode_eq_instr_iff`. -/
theorem decodeReadsEveryEncoding : Obligations.DecodeReadsEveryEncoding :=
  fun _ _ => decode_eq_instr_iff.mpr rfl

/-- Settles O2, the other direction of `decode_eq_instr_iff`. -/
theorem decodeAcceptsOnlyEncodings : Obligations.DecodeAcceptsOnlyEncodings :=
  fun _ _ _ => decode_eq_instr_iff.mp

/-- Settles O3: the tags outside the table (`rom_eq_none_iff`), followed through the decoder, the stepper and the
disassembler. -/
theorem invalidTags : Obligations.InvalidTags := by
  intro tag outside
  have invalid : rom tag = none := (rom_eq_none_iff tag).mpr outside
  have stops (m : Memory) (c limit : Nat) (h : c < limit) (here : m.byteAt c = tag) :
      formatAt m c limit = .stop (hex4 c ++ ": unrecognised code " ++ hex2 tag) (.unrecognised c tag) := by
    subst here
    exact formatAt_of_decodeAt_invalidOpcode (decodeAt_of_rom_none h invalid)
  refine ⟨decode_cons_of_rom_none invalid, fun s hs inside here => ?_, stops, fun m start stop nonempty inside here => ?_⟩
  · subst here
    exact step_of_rom_none hs inside invalid
  · exact disassemble_of_formatAt_stop nonempty inside (stops m start stop nonempty here)

/-- Settles O4, by the decoder's own questions: is there a tag, is it in the table, does the record split. -/
theorem decodingIsTotal : Obligations.DecodingIsTotal := by
  intro m c limit
  by_cases h : c < limit
  · right
    cases hrom : rom (m.byteAt c) with
    | none => exact .inl ⟨h, (rom_eq_none_iff _).mp hrom, decodeAt_of_rom_none h hrom⟩
    | some sh =>
      right
      cases hrec : sh.readRecord (m.bytes (c + 1) (min longestWidth (limit - c) - 1)) with
      | none =>
        obtain ⟨past, truncated⟩ := decodeAt_of_record_cut h hrom hrec
        exact .inl ⟨sh, h, rfl, past, truncated⟩
      | some instr_rest =>
        obtain ⟨i, rest⟩ := instr_rest
        have decoded := (decodeAt_inside h).trans (decode_cons_of_readRecord_some hrom hrec)
        obtain ⟨fits, there, _⟩ := decodeAt_eq_instr_iff.mp decoded
        exact .inr ⟨i, rest, fits, there, decoded⟩
  · exact .inl ⟨by omega, decodeAt_outside (by omega)⟩

/-- Settles O6: one width for the encoding (`encode_length`), the disassembler's line and the stepper's advance
(`exec_ip_of_not_transfer`). -/
theorem widthLaw : Obligations.WidthLaw := by
  refine ⟨fun i => ⟨encode_length_eq_fields i, (encode_length i).symm⟩, fun m c limit i rest decoded => ?_,
    fun s t i stays outside h ready => ?_⟩
  · rw [encode_length]
    exact formatAt_of_decodeAt_instr decoded
  · rw [encode_length]
    exact exec_ip_of_not_transfer stays outside h ready

/-- Settles O24: the SPIN is fetched from its three bytes and jumps to itself (`exec_spin`); the FAULT byte is an invalid
tag. -/
theorem spinAndFault : Obligations.SpinAndFault := by
  refine ⟨fun _ => rfl, fun s hs ready fits there => ?_, rfl, fun s hs inside here => ?_⟩
  · have decoded := (decodeAt_eq_instr_iff (i := spin s.mem.ip)).mpr ⟨fits, there, rfl⟩
    rw [step_of_fetch_ok ready hs.legal (fetch_of_decodeAt_instr decoded), exec_spin hs ready]
  · obtain ⟨_, halts, _⟩ := invalidTags faultByte (.inl rfl)
    exact halts s hs inside here

/-- Settles O5: each word is the encoding of its instruction, which O1 reads back. -/
theorem decodeSampleWords : Obligations.DecodeSampleWords :=
  have reads (i : Instr) : decode (encode i ++ []) = .instr i [] := decodeReadsEveryEncoding i []
  ⟨reads (.add 0x0100 0x0101 0x0102), reads (.not 0x0100 0x0101), reads (.jumpV 0x0010),
    reads (.cmpW 0x0100 0x0102 0x0104), reads (.setV 0x0100 0x002A), reads (.copy 0x0100 0x0200),
    reads (.set 0x0114 0x0112), reads .nop⟩

end Sys2Proof.Machine
end

section
/-! SUPPORT. What a Ready step does and what the disassembler writes, by the outcome of decoding at the IP (R83 to R86, R99,
R153). -/

namespace Sys2Proof.Machine

open Sys2Proof.Claims

/-- A record whose width reaches past the limit is cut by it (R85). -/
theorem decodeAt_of_record_past {m : Memory} {c limit : Nat} {sh : Shape} (h : c < limit)
    (hrom : rom (m.byteAt c) = some sh) (past : limit < c + sh.format.width) :
    decodeAt m c limit = .truncated (m.byteAt c) sh.format.width := by
  cases hrec : sh.readRecord (m.bytes (c + 1) (min longestWidth (limit - c) - 1)) with
  | none =>
    obtain ⟨_, truncated⟩ := decodeAt_of_record_cut h hrom hrec
    exact truncated
  | some instr_rest =>
    have record_there := Shape.readRecord_length hrec
    rw [Memory.bytes_length] at record_there
    omega

theorem fetch_of_decodeAt_truncated {m : Memory} {tag : Byte} {w : Nat}
    (h : decodeAt m m.ip.toNat m.size = .truncated tag w) :
    fetch m = .error (.outOfBounds (m.ip.toNat + 1) (w - 1)) := by
  simp only [fetch, h]

theorem fetch_of_decodeAt_empty {m : Memory} (h : decodeAt m m.ip.toNat m.size = .empty) :
    fetch m = .error (.outOfBounds m.ip.toNat 1) := by
  simp only [fetch, h]

theorem formatAt_of_decodeAt_truncated {m : Memory} {c limit : Nat} {tag : Byte} {w : Nat}
    (h : decodeAt m c limit = .truncated tag w) :
    formatAt m c limit = .stop (hex4 c ++ ": truncated code " ++ hex2 tag) (.truncated c tag) := by
  simp only [formatAt, h]

theorem formatAt_of_decodeAt_empty {m : Memory} {c limit : Nat} (h : decodeAt m c limit = .empty) :
    formatAt m c limit = .stop (hex4 c ++ ": out of range") (.outOfRange c) := by
  simp only [formatAt, h]

section RunnableState

variable {s : State} (hs : Runnable s)
include hs

theorem step_of_decodeAt_instr {i : Instr} {rest : List Byte}
    (h : decodeAt s.mem s.mem.ip.toNat s.mem.size = .instr i rest) : step s = exec i s :=
  step_of_fetch_ok hs.1 hs.2 (fetch_of_decodeAt_instr h)

theorem step_of_decodeAt_truncated {tag : Byte} {w : Nat}
    (h : decodeAt s.mem s.mem.ip.toNat s.mem.size = .truncated tag w) :
    step s = .next (haltedBy s (.outOfBounds (s.mem.ip.toNat + 1) (w - 1))) :=
  step_of_fetch_error hs.1 hs.2 (fetch_of_decodeAt_truncated h)

theorem step_of_decodeAt_empty (h : decodeAt s.mem s.mem.ip.toNat s.mem.size = .empty) :
    step s = .next (haltedBy s (.outOfBounds s.mem.ip.toNat 1)) :=
  step_of_fetch_error hs.1 hs.2 (fetch_of_decodeAt_empty h)

/-- A Ready step on a blank byte halts (R69, R97). -/
theorem step_of_blank_tag (inside : s.mem.ip.toNat < s.mem.size)
    (blank : s.mem.byteAt s.mem.ip.toNat = 0x00) : step s = .next (haltedBy s (.invalidOpcode 0x00)) := by
  obtain ⟨_, _, _, fault_halts⟩ := spinAndFault
  exact fault_halts s hs inside blank

end RunnableState

end Sys2Proof.Machine
end

section
/-! SUPPORT. A step always answers (R90) and depends on memory alone (R94), what the Step transaction tells the host (R80), and how
a run and its trace unfold step by step (R93, R153). -/

namespace Sys2Proof.Machine

/-! ### The step as a function -/

/-- The commit and halt entry both answer a state (R89). -/
theorem State.runEffect_total (s : State) (f : Format) (e : Memory → Except Failure Memory) :
    ∃ t, s.runEffect f e = .next t := by
  cases h : e (s.mem.advance f) with
  | ok m => exact ⟨_, State.runEffect_ok h⟩
  | error c => exact ⟨_, State.runEffect_error h⟩

theorem exec_total (i : Instr) (s : State) : ∃ t, exec i s = .next t := by
  rw [exec_eq_runEffect]
  exact State.runEffect_total ..

theorem step_total {s : State} (legal : s.mem.params.Legal) : ∃ t, step s = .next t := by
  cases hr : s.run with
  | halted => exact ⟨s, step_halted hr⟩
  | ready =>
    cases hf : fetch s.mem with
    | ok i => rw [step_of_fetch_ok hr legal hf]; exact exec_total i s
    | error e => exact ⟨_, step_of_fetch_error hr legal hf⟩

/-- The only state without a step is no machine of the spec (log 3). -/
theorem step_illegal {s : State} (hr : s.run = .ready) (illegal : ¬ s.mem.params.Legal) :
    step s = .fault .illegalParams := by
  simp only [step, hr, if_neg illegal]

theorem State.takeFailure_congr {s t : State} (same : s.mem = t.mem) (e : Failure) : s.takeFailure e = t.takeFailure e := by
  rw [State.takeFailure, State.takeFailure, same]

/-- Neither the run state nor the halt record plays a part in an instruction (log 8). -/
theorem exec_congr {s t : State} (same : s.mem = t.mem) (i : Instr) : exec i s = exec i t := by
  rw [exec_eq_runEffect, exec_eq_runEffect]
  cases h : effectOf i (t.mem.advance i.row.format) with
  | ok m => rw [State.runEffect_ok h, State.runEffect_ok (same ▸ h)]
  | error c => rw [State.runEffect_error h, State.runEffect_error (same ▸ h), State.takeFailure_congr same]

/-! ### The Step transaction -/

theorem stepResponse_eq_stepped_iff {s : State} : stepResponse s = .stepped ↔ s.run = .ready := by
  cases hr : s.run <;> simp [stepResponse, hr]

theorem stepResponse_eq_halted_iff {s : State} {r : HaltRecord} :
    stepResponse s = .halted r ↔ s.run = .halted ∧ s.halt = r := by
  cases hr : s.run <;> simp [stepResponse, hr]

/-- A Step transaction with an answer made the step, and the answer is read off the state it left (R80). -/
theorem step_of_transact_step {s t : State} {r : Response} (h : transact .step s = (t, r)) (answered : r ≠ .noTransition) :
    step s = .next t ∧ stepResponse t = r := by
  cases hstep : step s with
  | next t' =>
    obtain ⟨rfl, rfl⟩ := Prod.mk.inj ((transact_step hstep).symm.trans h)
    exact ⟨rfl, rfl⟩
  | fault e | refused e =>
    simp only [transact, hstep, Prod.mk.injEq] at h
    exact absurd h.2.symm answered

/-! ### Runs and traces -/

/-- Only a Ready machine makes a step that ends Ready (R81). -/
theorem ready_of_step_ready {s t : State} (h : step s = .next t) (ht : t.run = .ready) : s.run = .ready := by
  obtain ⟨_, rfl⟩ | ⟨ready, _⟩ | ⟨ready, _⟩ := step_cases h
  · exact ht
  · exact ready
  · exact ready

theorem run_succ_of_step_ready {s t : State} (h : step s = .next t) (ht : t.run = .ready) (k : Nat) :
    run (k + 1) s = run k t := by
  simp only [run, h, ht]

/-- A run of a Halted machine stays there, however long it is (R27). -/
theorem run_halted {s : State} (hs : s.run = .halted) (k : Nat) : run k s = .next s := by
  cases k with
  | zero => rfl
  | succ k => exact run_succ_of_step_halted (step_halted hs) hs k

theorem trace_halted {s : State} (hs : s.run = .halted) (k : Nat) : trace k s = [] := by
  cases k with
  | zero => rfl
  | succ k => simp only [trace, hs]

theorem trace_succ_of_ready {s t : State} (hs : s.run = .ready) (h : step s = .next t) (k : Nat) :
    trace (k + 1) s = (traceLine s.mem).text :: trace k t := by
  simp only [trace, hs, h]

/-- A run is its first step and the run from there, whether or not that step halts. -/
theorem run_succ_of_step {s t : State} (h : step s = .next t) (k : Nat) : run (k + 1) s = run k t := by
  cases ht : t.run with
  | ready => exact run_succ_of_step_ready h ht k
  | halted => rw [run_succ_of_step_halted h ht, run_halted ht]

/-- A run that answers has a first step that answers, and goes on from there. -/
theorem run_succ_cases {s t : State} {k : Nat} (h : run (k + 1) s = .next t) :
    ∃ u, step s = .next u ∧ run k u = .next t := by
  cases hstep : step s with
  | next u => exact ⟨u, rfl, (run_succ_of_step hstep k).symm.trans h⟩
  | fault e | refused e => simp [run, hstep] at h

/-- A run in two parts is the whole run, with the two traces joined (R93, R153). -/
theorem run_trace_add {t : State} (k : Nat) : ∀ (j : Nat) (s : State), run j s = .next t →
    run (j + k) s = run k t ∧ trace (j + k) s = trace j s ++ trace k t := by
  intro j
  induction j with
  | zero =>
    intro s h
    cases h
    rw [Nat.zero_add]
    exact ⟨rfl, rfl⟩
  | succ j ih =>
    intro s h
    obtain ⟨u, first, later⟩ := run_succ_cases h
    obtain ⟨runs, traces⟩ := ih u later
    rw [Nat.add_right_comm, run_succ_of_step first]
    refine ⟨runs, ?_⟩
    cases hs : s.run with
    | ready => rw [trace_succ_of_ready hs first, trace_succ_of_ready hs first, traces, List.cons_append]
    | halted =>
      obtain rfl : s = t := by
        have stays := run_halted hs (j + 1)
        rw [h] at stays
        exact (Host.Outcome.next.inj stays).symm
      simp only [trace_halted hs, List.append_nil]

end Sys2Proof.Machine
end

section
/-! SUPPORT. Stores of bytes and words at and across the IP slot (R91, R92), and the instructions that make them. -/

namespace Sys2Proof.Machine

open Sys2Proof.Claims

theorem ofNat_toNat_eq_loByte (w : Word) : BitVec.ofNat 8 w.toNat = loByte w := by
  apply BitVec.eq_of_toNat_eq
  simp [loByte, BitVec.extractLsb'_toNat]

theorem ofNat_toNat_div_eq_hiByte (w : Word) : BitVec.ofNat 8 (w.toNat / 256) = hiByte w := by
  apply BitVec.eq_of_toNat_eq
  simp [hiByte, BitVec.extractLsb'_toNat, Nat.shiftRight_eq_div_pow]

/-- The slot's bytes are the halves of the IP (R24). -/
theorem Memory.byteAt_zero (m : Memory) : m.byteAt 0 = loByte m.ip := by
  rw [Memory.ip_eq_fieldOf, loByte_fieldOf]

theorem Memory.byteAt_one (m : Memory) : m.byteAt 1 = hiByte m.ip := by
  rw [Memory.ip_eq_fieldOf, hiByte_fieldOf]

theorem Memory.byteAt_storeByte_same (m : Memory) (a : Nat) (b : Byte) : (m.storeValue a 1 b.toNat).byteAt a = b :=
  BitVec.eq_of_toNat_eq (Memory.byteAt_storeByte b.isLt m a)

theorem Memory.byteAt_storeWord_low (m : Memory) (a : Nat) (w : Word) :
    (m.storeValue a 2 w.toNat).byteAt a = loByte w := by
  have stored := m.byteAt_storeValue_inside a w.toNat (n := 2) (i := 0) (by omega)
  rwa [Nat.add_zero, pow_zero, Nat.div_one, ofNat_toNat_eq_loByte] at stored

theorem Memory.byteAt_storeWord_high (m : Memory) (a : Nat) (w : Word) :
    (m.storeValue a 2 w.toNat).byteAt (a + 1) = hiByte w := by
  have stored := m.byteAt_storeValue_inside a w.toNat (n := 2) (i := 1) (by omega)
  rwa [pow_one, ofNat_toNat_div_eq_hiByte] at stored

/-- A word stored is the word read back (R51). -/
theorem Memory.valueAt_storeWord (m : Memory) (a : Nat) (w : Word) : (m.storeValue a 2 w.toNat).valueAt a 2 = w.toNat :=
  (m.valueAt_storeValue a 2 w.toNat).trans (Nat.mod_eq_of_lt w.isLt)

/-- A byte stored at address 0 replaces the low half of the IP (R92). -/
theorem Memory.ip_storeByte_zero (m : Memory) (b : Byte) : (m.storeValue 0 1 b.toNat).ip = fieldOf b (hiByte m.ip) := by
  rw [Memory.ip_eq_fieldOf, Memory.byteAt_storeByte_same, Memory.byteAt_storeValue_outside m _ (.inr le_rfl),
    Memory.byteAt_one]

/-- A byte stored at address 1 replaces the high half of the IP (R92). -/
theorem Memory.ip_storeByte_one (m : Memory) (b : Byte) : (m.storeValue 1 1 b.toNat).ip = fieldOf (loByte m.ip) b := by
  rw [Memory.ip_eq_fieldOf, Memory.byteAt_storeByte_same, Memory.byteAt_storeValue_outside m _ (.inl Nat.one_pos),
    Memory.byteAt_zero]

/-- A word stored at address 1 replaces the high half of the IP and the byte after the slot (R92). -/
theorem Memory.ip_storeWord_one (m : Memory) (w : Word) :
    (m.storeValue 1 2 w.toNat).ip = fieldOf (loByte m.ip) (loByte w) := by
  rw [Memory.ip_eq_fieldOf, Memory.byteAt_storeWord_low, Memory.byteAt_storeValue_outside m _ (.inl Nat.one_pos),
    Memory.byteAt_zero]

theorem inside_advance {s : State} {a n : Nat} (h : Inside s a n) (f : Format) : a + n ≤ (s.mem.advance f).size := by
  rwa [Memory.size, Memory.advance_params]

theorem exec_setV_inside {s : State} {addr : Word} (value : Word) (inside : Inside s addr.toNat 1) :
    exec (.setV addr value) s =
      .next (State.committed ((s.mem.advance .f2).storeValue addr.toNat 1 (loByte value).toNat)) :=
  State.runEffect_ok (memWrite_inside (inside_advance inside .f2) _)

theorem exec_setVW_inside {s : State} {addr : Word} (value : Word) (inside : Inside s addr.toNat 2) :
    exec (.setVW addr value) s =
      .next (State.committed ((s.mem.advance .f2).storeValue addr.toNat 2 value.toNat)) :=
  State.runEffect_ok (memWrite_inside (inside_advance inside .f2) _)

theorem exec_copyW_inside {s : State} {src dst : Word} (hsrc : Inside s src.toNat 2) (hdst : Inside s dst.toNat 2) :
    exec (.copyW src dst) s = .next (State.committed
      ((s.mem.advance .f2).storeValue dst.toNat 2 ((s.mem.advance .f2).valueAt src.toNat 2))) := by
  refine State.runEffect_ok (e := copyOp 2 src dst) ?_
  rw [copyOp_eq, if_neg (inside_advance hsrc .f2).not_gt, if_neg (inside_advance hdst .f2).not_gt]

end Sys2Proof.Machine
end

section
/-! The stepper: fetch and its failures (R83 to R86), totality and determinism (R90, R94), the IP slot (R91, R92, R97), and what
the host is told of a step, a run and a trace (R80, R93, R99, R153). -/

namespace Sys2Proof.Machine

open Sys2Proof.Claims

/-- Settles O14: each failure is an outcome of decoding at the IP, in the order of the reads. -/
theorem fetchFailures : Obligations.FetchFailures := by
  intro s hs
  refine ⟨fun past => ?_, step_of_rom_none hs, fun shape inside valid past => ?_⟩
  · exact step_of_decodeAt_empty hs (decodeAt_outside past)
  · exact step_of_decodeAt_truncated hs (decodeAt_of_record_past inside valid past)

/-- Settles O17. -/
theorem stepIsTotal : Obligations.StepIsTotal :=
  fun _ legal => step_total legal

/-- Settles O20: the byte fetched from the slot is a half of an IP of 0 or 1, and that half is 0x00. -/
theorem ipSlotCannotBeExecuted : Obligations.IpSlotCannotBeExecuted := by
  refine ⟨fun s hs in_slot => ?_, fun p legal => ?_⟩
  · have two_le : 2 ≤ s.mem.size := hs.2.1
    obtain zero | one := in_slot
    · refine step_of_blank_tag hs ?_ ?_ <;> rw [zero]
      · exact Nat.zero_lt_of_lt two_le
      · exact s.mem.byteAt_zero.trans (by rw [zero]; rfl)
    · refine step_of_blank_tag hs ?_ ?_ <;> rw [one]
      · exact two_le
      · exact s.mem.byteAt_one.trans (by rw [one]; rfl)
  · obtain ⟨blank, ip_zero, ready, _⟩ := resetValues.1 p
    refine step_of_blank_tag ⟨ready, legal⟩ ?_ (blank _)
    rw [ip_zero]
    exact Nat.zero_lt_of_lt legal.1

/-- Settles O43: the effect works on the advanced memory, whose slot holds the advanced IP, and the rest is a store at or across
the slot. -/
theorem ipSlotAsOperand : Obligations.IpSlotAsOperand := by
  have advanced (s : State) : (s.mem.advance .f2).ip = nextIp s 5 := Memory.advance_ip s.mem .f2
  refine ⟨fun s dst _ inside two_le => ⟨_, exec_copyW_inside (src := 0) two_le inside, ?_⟩,
    fun s v two_le => ⟨_, exec_setVW_inside (addr := 0) v two_le, Memory.setIp_ip _ v⟩,
    fun s v two_le => ⟨_, exec_setV_inside (addr := 0) v (Nat.le_of_succ_le two_le), ?_⟩,
    fun s v two_le => ⟨_, exec_setV_inside (addr := 1) v two_le, ?_⟩,
    fun s v three_le => ⟨_, exec_setVW_inside (addr := 1) v three_le, ?_, Memory.byteAt_storeWord_high _ 1 v⟩⟩
  · have slot_value : (s.mem.advance .f2).valueAt 0 2 = (nextIp s 5).toNat := by rw [← Memory.ip_toNat, advanced]
    have still_inside : dst.toNat + 2 ≤ ((s.mem.advance .f2).storeValue dst.toNat 2 (nextIp s 5).toNat).size := by
      rwa [Memory.size, Memory.storeValue_params, Memory.advance_params]
    rw [State.committed_mem, show (0 : Word).toNat = 0 from rfl, slot_value, memRead_inside still_inside,
      Memory.valueAt_storeWord]
  · exact advanced s ▸ Memory.ip_storeByte_zero _ (loByte v)
  · exact advanced s ▸ Memory.ip_storeByte_one _ (loByte v)
  · exact advanced s ▸ Memory.ip_storeWord_one _ v

/-- Settles O55: the stepper and the disassembler read the same decode, whose outcomes are those of O4. -/
theorem traceLineNamesTheStep : Obligations.TraceLineNamesTheStep := by
  intro s hs
  obtain ⟨_, none_there⟩ | ⟨inside, outside, invalid⟩ | ⟨shape, _, valid, _, cut⟩ | ⟨i, rest, _, _, decoded⟩ :=
    decodingIsTotal s.mem s.mem.ip.toNat s.mem.size
  · exact .inr (.inl ⟨formatAt_of_decodeAt_empty none_there, step_of_decodeAt_empty hs none_there⟩)
  · have not_listed := (rom_eq_none_iff _).mpr outside
    exact .inr (.inr (.inl ⟨_, formatAt_of_decodeAt_invalidOpcode invalid, step_of_rom_none hs inside not_listed⟩))
  · exact .inr (.inr (.inr
      ⟨_, shape, valid, formatAt_of_decodeAt_truncated cut, step_of_decodeAt_truncated hs cut⟩))
  · exact .inl ⟨i, formatAt_of_decodeAt_instr decoded, step_of_decodeAt_instr hs decoded⟩

/-- Settles O60: the two answers of Step unfold a run and its trace once, and the parts join by `run_trace_add`. -/
theorem runsAndTraces : Obligations.RunsAndTraces := by
  refine ⟨fun s => ⟨rfl, rfl⟩, fun s t k h => ?_, fun s t r k h => ?_, fun s t j k h => run_trace_add k j s h⟩
  · obtain ⟨stepped, answer⟩ := step_of_transact_step h (by simp)
    have ready := ready_of_step_ready stepped (stepResponse_eq_stepped_iff.mp answer)
    exact ⟨run_succ_of_step stepped k, trace_succ_of_ready ready stepped k⟩
  · obtain ⟨stepped, answer⟩ := step_of_transact_step h (by simp)
    obtain ⟨halted, _⟩ := stepResponse_eq_halted_iff.mp answer
    refine ⟨run_succ_of_step_halted stepped halted k, ?_⟩
    cases hs : s.run with
    | ready => rw [trace_succ_of_ready hs stepped, trace_halted halted, if_pos rfl]
    | halted => rw [trace_halted hs, if_neg (by simp)]

/-- Settles O13: the bytes at the IP decode to what they encode (`decodeAt_eq_instr_iff`), and the step runs it. -/
theorem stepRunsDecodedInstruction : Obligations.StepRunsDecodedInstruction :=
  ⟨fun _ _ _ hs decoded => step_of_decodeAt_instr hs decoded,
    fun _ _ hs fits there => step_of_decodeAt_instr hs (decodeAt_eq_instr_iff.mpr ⟨fits, there, rfl⟩)⟩

/-- Settles O18: the parameters, the fetch, the instruction and halt entry all read memory alone. -/
theorem stepDependsOnMemoryAlone : Obligations.StepDependsOnMemoryAlone := by
  intro s t hs ht same
  by_cases legal : t.mem.params.Legal
  · cases hf : fetch t.mem with
    | ok i => rw [step_of_fetch_ok ht legal hf, step_of_fetch_ok hs (same ▸ legal) (same ▸ hf), exec_congr same]
    | error e =>
      rw [step_of_fetch_error ht legal hf, step_of_fetch_error hs (same ▸ legal) (same ▸ hf),
        State.takeFailure_congr same]
  · rw [step_illegal ht legal, step_illegal hs (same ▸ legal)]

/-- Settles O58: the answer is read off the state the step leaves, and there is one (`step_total`). -/
theorem stepTransactionReports : Obligations.StepTransactionReports := by
  have answers {s t : State} (h : step s = .next t) :
      (t.run = .ready → transact .step s = (t, .stepped)) ∧
        (t.run = .halted → transact .step s = (t, .halted t.halt)) := by
    rw [transact_step h]
    exact ⟨fun ready => by rw [stepResponse_eq_stepped_iff.mpr ready], fun halted => by rw [stepResponse_halted halted]⟩
  refine ⟨fun s t => answers, fun s legal => ?_⟩
  obtain ⟨t, h⟩ := step_total legal
  obtain ⟨if_ready, if_halted⟩ := answers h
  refine ⟨t, h, ?_⟩
  cases ht : t.run with
  | ready => exact .inl ⟨rfl, if_ready ht⟩
  | halted => exact .inr ⟨rfl, if_halted ht⟩

end Sys2Proof.Machine
end

section
/-! SUPPORT. An effect as a chain of bounds checks in front of one store (R95, R100): where it fails, and what it stores. -/

namespace Sys2Proof.Machine

open Sys2Proof.Claims

/-- An effect behind the bounds check of the `n` bytes at `a` (R12). -/
def checked (a n : Nat) (rest : Memory → Except Failure Memory) (m : Memory) : Except Failure Memory :=
  if m.size < a + n then .error (.outOfBounds a n) else rest m

/-- The effect that stores `n` bytes of the value it computes from memory at `a`, which has been checked (R40). -/
def storing (a n : Nat) (value : Memory → Nat) (m : Memory) : Except Failure Memory :=
  .ok (m.storeValue a n (value m))

theorem binOp_eq_checked (n : Nat) (f : Nat → Nat → Int) (a b r : Word) :
    binOp n f a b r = checked a.toNat n (checked b.toNat n (checked r.toNat n
      (storing r.toNat n fun m => narrow n (f (m.valueAt a.toNat n) (m.valueAt b.toNat n))))) :=
  funext (binOp_eq n f a b r)

/-- The effect of DIV and DIV_W behind its bounds checks: the divisor is checked last (R104). -/
def dividing (n : Nat) (a b r : Word) (m : Memory) : Except Failure Memory :=
  if m.valueAt b.toNat n = 0 then .error .divisionByZero
  else storing r.toNat n (fun m => narrow n (opDiv (m.valueAt a.toNat n) (m.valueAt b.toNat n))) m

theorem divOp_eq_checked (n : Nat) (a b r : Word) :
    divOp n a b r = checked a.toNat n (checked b.toNat n (checked r.toNat n (dividing n a b r))) :=
  funext (divOp_eq n a b r)

theorem runEffect_checked_inside {s : State} {a n : Nat} (inside : Inside s a n) (f : Format)
    (rest : Memory → Except Failure Memory) : s.runEffect f (checked a n rest) = s.runEffect f rest := by
  rw [State.runEffect, State.runEffect, checked, if_neg (inside_advance inside f).not_gt]

theorem runEffect_checked_outside {s : State} {a n : Nat} (outside : ¬Inside s a n) (f : Format)
    (rest : Memory → Except Failure Memory) :
    s.runEffect f (checked a n rest) = .next (haltedBy s (.outOfBounds a n)) := by
  refine State.runEffect_error (if_pos ?_)
  rw [Memory.size, Memory.advance_params]
  exact Nat.lt_of_not_le outside

/-- A store completes the step, and no byte but the stored ones differs from what the effect saw (R87, R89). -/
theorem runEffect_storing (s : State) {f : Format} {w : Nat} (hw : f.width = w) (a n : Nat) (value : Memory → Nat) :
    ∃ t, s.runEffect f (storing a n value) = .next t ∧ Stored s w t a n (value (s.mem.advance f)) := by
  subst hw
  refine ⟨_, State.runEffect_ok rfl, rfl, rfl, ?_, fun x => ?_⟩
  · rw [State.committed_mem, Memory.storeValue_params, Memory.advance_params]
  · rw [State.committed_mem, Memory.byteAt_storeValue, seenByte_eq_byteAt_advance]

/-- The first operand out of bounds, in field order, is the one the record names (R100, R168). -/
theorem checked_operands_fail_in_order {s : State} {i : Instr} {n a b r : Nat} {rest : Memory → Except Failure Memory}
    (meaning : exec i s = s.runEffect .f3 (checked a n (checked b n (checked r n rest)))) :
    (¬Inside s a n → exec i s = .next (haltedBy s (.outOfBounds a n))) ∧
    (Inside s a n → ¬Inside s b n → exec i s = .next (haltedBy s (.outOfBounds b n))) ∧
    (Inside s a n → Inside s b n → ¬Inside s r n → exec i s = .next (haltedBy s (.outOfBounds r n))) := by
  rw [meaning]
  refine ⟨fun ha => runEffect_checked_outside ha _ _, fun ha hb => ?_, fun ha hb hr => ?_⟩
  · rw [runEffect_checked_inside ha, runEffect_checked_outside hb]
  · rw [runEffect_checked_inside ha, runEffect_checked_inside hb, runEffect_checked_outside hr]

theorem checked_operands_inside {s : State} {i : Instr} {n a b r : Nat} {rest : Memory → Except Failure Memory}
    (meaning : exec i s = s.runEffect .f3 (checked a n (checked b n (checked r n rest))))
    (ha : Inside s a n) (hb : Inside s b n) (hr : Inside s r n) : exec i s = s.runEffect .f3 rest := by
  rw [meaning, runEffect_checked_inside ha, runEffect_checked_inside hb, runEffect_checked_inside hr]

end Sys2Proof.Machine
end

section
/-! SUPPORT. The arithmetic of the binary operations: what narrowing makes of each exact result (R100 to R114). -/

namespace Sys2Proof.Machine

theorem narrow_natCast (n v : Nat) : narrow n (v : Int) = v % 2 ^ (8 * n) := by
  rw [narrow, ← Int.natCast_mod, Int.toNat_natCast]

/-- A result that fits the operand width is stored as it is. -/
theorem narrow_natCast_of_lt {n v : Nat} (h : v < 2 ^ (8 * n)) : narrow n (v : Int) = v := by
  rw [narrow_natCast, Nat.mod_eq_of_lt h]

theorem narrow_opAdd (n x y : Nat) : narrow n (opAdd x y) = (x + y) % 2 ^ (8 * n) :=
  narrow_natCast n (x + y)

theorem narrow_opSub (n x y : Nat) : narrow n (opSub x y) = (((x : Int) - y) % (2 ^ (8 * n) : Nat)).toNat :=
  rfl

theorem narrow_opMul (n x y : Nat) : narrow n (opMul x y) = (x * y) % 2 ^ (8 * n) :=
  narrow_natCast n (x * y)

theorem narrow_opDiv {n x : Nat} (hx : x < 2 ^ (8 * n)) (y : Nat) : narrow n (opDiv x y) = x / y :=
  narrow_natCast_of_lt ((Nat.div_le_self x y).trans_lt hx)

theorem narrow_opAnd {n y : Nat} (x : Nat) (hy : y < 2 ^ (8 * n)) : narrow n (opAnd x y) = x &&& y :=
  narrow_natCast_of_lt (Nat.and_lt_two_pow x hy)

theorem narrow_opOr {n x y : Nat} (hx : x < 2 ^ (8 * n)) (hy : y < 2 ^ (8 * n)) : narrow n (opOr x y) = x ||| y :=
  narrow_natCast_of_lt (Nat.or_lt_two_pow hx hy)

theorem narrow_opXor {n x y : Nat} (hx : x < 2 ^ (8 * n)) (hy : y < 2 ^ (8 * n)) : narrow n (opXor x y) = x ^^^ y :=
  narrow_natCast_of_lt (Nat.xor_lt_two_pow hx hy)

end Sys2Proof.Machine
end

section
/-! SUPPORT. The rule of `BinOp(N, f)` and the rule of DIV and DIV_W, each proved once at any operand width (R100). -/

namespace Sys2Proof.Machine

open Sys2Proof.Claims

theorem seen_f3 (s : State) (a n : Nat) : seen s 7 a n = (s.mem.advance .f3).valueAt a n :=
  seen_eq_valueAt_advance s (f := .f3) rfl n a

theorem seen_f3_lt (s : State) (a n : Nat) : seen s 7 a n < 2 ^ (8 * n) := by
  rw [seen_f3, two_pow_bits]
  exact Memory.valueAt_lt _ a n

/-- What is stored is the operation on the operand values the effect sees (R91). -/
theorem runEffect_storing_operands (s : State) (a b r n : Nat) (v : Nat → Nat → Nat) :
    ∃ t, s.runEffect .f3 (storing r n fun m => v (m.valueAt a n) (m.valueAt b n)) = .next t ∧
      Stored s 7 t r n (v (seen s 7 a n) (seen s 7 b n)) := by
  rw [seen_f3, seen_f3]
  exact runEffect_storing s rfl r n _

theorem runEffect_dividing_of_zero {s : State} {n : Nat} {b : Word} (zero : seen s 7 b.toNat n = 0) (a r : Word) :
    s.runEffect .f3 (dividing n a b r) = .next (haltedBy s .divisionByZero) :=
  State.runEffect_error (if_pos (seen_f3 s b.toNat n ▸ zero))

theorem runEffect_dividing_of_ne_zero {s : State} {n : Nat} {b : Word} (nonzero : seen s 7 b.toNat n ≠ 0) (a r : Word) :
    s.runEffect .f3 (dividing n a b r) = s.runEffect .f3
      (storing r.toNat n fun m => narrow n (opDiv (m.valueAt a.toNat n) (m.valueAt b.toNat n))) := by
  rw [State.runEffect, State.runEffect, dividing, if_neg (seen_f3 s b.toNat n ▸ nonzero)]

/-- An instruction that checks its three operands and then stores `v` of the first two follows the rule of `f`, when `v` and
`f` agree on values of the operand width. -/
theorem binaryRule_of_storing {make : Word → Word → Word → Instr} {tag : Byte} {n : Nat} {v f : Nat → Nat → Nat}
    (value : ∀ x y, x < 2 ^ (8 * n) → y < 2 ^ (8 * n) → v x y = f x y)
    (encoding : ∀ a b r, encode (make a b r) = bytesF3 tag a b r)
    (meaning : ∀ a b r s, exec (make a b r) s = s.runEffect .f3
      (checked a.toNat n (checked b.toNat n (checked r.toNat n
        (storing r.toNat n fun m => v (m.valueAt a.toNat n) (m.valueAt b.toNat n)))))) : BinaryRule make tag n f := by
  intro s a b r
  refine ⟨encoding a b r, fun ha hb hr => ?_, checked_operands_fail_in_order (meaning a b r s)⟩
  rw [checked_operands_inside (meaning a b r s) ha hb hr, ← value _ _ (seen_f3_lt s _ n) (seen_f3_lt s _ n)]
  exact runEffect_storing_operands s a.toNat b.toNat r.toNat n v

/-- `BinOp(N, op)` follows the rule for what narrowing leaves of `op` (R100). -/
theorem binaryRule_of_binOp {make : Word → Word → Word → Instr} {tag : Byte} {n : Nat} {op : Nat → Nat → Int}
    {f : Nat → Nat → Nat} (value : ∀ x y, x < 2 ^ (8 * n) → y < 2 ^ (8 * n) → narrow n (op x y) = f x y)
    (encoding : ∀ a b r, encode (make a b r) = bytesF3 tag a b r := by intros; rfl)
    (meaning : ∀ a b r s, exec (make a b r) s = s.runEffect .f3 (binOp n op a b r) := by intros; rfl) :
    BinaryRule make tag n f :=
  binaryRule_of_storing value encoding fun a b r s => by rw [meaning, binOp_eq_checked]

/-- Behind its bounds checks a division fails on a zero divisor and stores the quotient otherwise (R104, R111). -/
theorem divRule_of_divOp {make : Word → Word → Word → Instr} {tag : Byte} {n : Nat}
    (encoding : ∀ a b r, encode (make a b r) = bytesF3 tag a b r := by intros; rfl)
    (meaning : ∀ a b r s, exec (make a b r) s = s.runEffect .f3 (divOp n a b r) := by intros; rfl) :
    DivRule make tag n := by
  intro s a b r
  have chain := (meaning a b r s).trans (by rw [divOp_eq_checked])
  refine ⟨encoding a b r, fun ha hb hr nonzero => ?_, fun ha hb hr zero => ?_, checked_operands_fail_in_order chain⟩
  · rw [checked_operands_inside chain ha hb hr, runEffect_dividing_of_ne_zero nonzero,
      ← narrow_opDiv (seen_f3_lt s a.toNat n)]
    exact runEffect_storing_operands s a.toNat b.toNat r.toNat n fun x y => narrow n (opDiv x y)
  · rw [checked_operands_inside chain ha hb hr, runEffect_dividing_of_zero zero]

end Sys2Proof.Machine
end

section
/-! The binary operations on bytes and on 16-bit values (R100 to R114). -/

namespace Sys2Proof.Machine

/-- Settles O25: each result is taken modulo 256 (`binaryRule_of_binOp`). -/
theorem addSubMulBytes : Obligations.AddSubMulBytes :=
  ⟨binaryRule_of_binOp fun x y _ _ => narrow_opAdd 1 x y,
    binaryRule_of_binOp fun x y _ _ => narrow_opSub 1 x y,
    binaryRule_of_binOp fun x y _ _ => narrow_opMul 1 x y⟩

/-- Settles O26, by `divRule_of_divOp` on bytes. -/
theorem divBytes : Obligations.DivBytes :=
  divRule_of_divOp

/-- Settles O27: a bitwise result is no wider than its operands. -/
theorem andOrXorBytes : Obligations.AndOrXorBytes :=
  ⟨binaryRule_of_binOp fun x _ _ hy => narrow_opAnd x hy,
    binaryRule_of_binOp fun _ _ hx hy => narrow_opOr hx hy,
    binaryRule_of_binOp fun _ _ hx hy => narrow_opXor hx hy⟩

/-- Settles O28: as O25, on 16-bit values and modulo 65536. -/
theorem addSubMulWords : Obligations.AddSubMulWords :=
  ⟨binaryRule_of_binOp fun x y _ _ => narrow_opAdd 2 x y,
    binaryRule_of_binOp fun x y _ _ => narrow_opSub 2 x y,
    binaryRule_of_binOp fun x y _ _ => narrow_opMul 2 x y⟩

/-- Settles O29, by `divRule_of_divOp` on 16-bit values. -/
theorem divWords : Obligations.DivWords :=
  divRule_of_divOp

/-- Settles O30: as O27, on 16-bit values. -/
theorem andOrXorWords : Obligations.AndOrXorWords :=
  ⟨binaryRule_of_binOp fun x _ _ hy => narrow_opAnd x hy,
    binaryRule_of_binOp fun _ _ hx hy => narrow_opOr hx hy,
    binaryRule_of_binOp fun _ _ hx hy => narrow_opXor hx hy⟩

end Sys2Proof.Machine
end

section
/-! SUPPORT. The rule of NOT and the rule of the shifts: two bounds checks, the amount check of a shift, one store (R116,
R117). -/

namespace Sys2Proof.Machine

open Sys2Proof.Claims

/-! ### An instruction that checks a source and a result -/

/-- The source is checked before the result, and the record names the first one out of bounds (R116, R117, R168). -/
theorem checked_source_result_fail_in_order {s : State} {i : Instr} {f : Format} {n a r : Nat}
    {rest : Memory → Except Failure Memory}
    (meaning : exec i s = s.runEffect f (checked a n (checked r n rest))) :
    (¬Inside s a n → exec i s = .next (haltedBy s (.outOfBounds a n))) ∧
    (Inside s a n → ¬Inside s r n → exec i s = .next (haltedBy s (.outOfBounds r n))) := by
  rw [meaning]
  refine ⟨fun ha => runEffect_checked_outside ha _ _, fun ha hr => ?_⟩
  rw [runEffect_checked_inside ha, runEffect_checked_outside hr]

theorem checked_source_result_inside {s : State} {i : Instr} {f : Format} {n a r : Nat}
    {rest : Memory → Except Failure Memory}
    (meaning : exec i s = s.runEffect f (checked a n (checked r n rest)))
    (ha : Inside s a n) (hr : Inside s r n) : exec i s = s.runEffect f rest := by
  rw [meaning, runEffect_checked_inside ha, runEffect_checked_inside hr]

/-- What is stored is the operation on the source value the effect sees (R91). -/
theorem runEffect_storing_source (s : State) {f : Format} {w : Nat} (hw : f.width = w) (a r n : Nat) (v : Nat → Nat) :
    ∃ t, s.runEffect f (storing r n fun m => v (m.valueAt a n)) = .next t ∧ Stored s w t r n (v (seen s w a n)) := by
  rw [seen_eq_valueAt_advance s hw]
  exact runEffect_storing s hw r n _

/-! ### NOT -/

theorem notOp_eq_checked (n : Nat) (inp r : Word) :
    notOp n inp r = checked inp.toNat n (checked r.toNat n
      (storing r.toNat n fun m => opNot n (m.valueAt inp.toNat n))) :=
  funext (notOp_eq n inp r)

theorem exec_not_eq_checked (inp r : Word) (s : State) :
    exec (.not inp r) s = s.runEffect .f2 (checked inp.toNat 1 (checked r.toNat 1
      (storing r.toNat 1 fun m => opNot 1 (m.valueAt inp.toNat 1)))) :=
  (exec_eq_runEffect (.not inp r) s).trans (congrArg (s.runEffect .f2) (notOp_eq_checked 1 inp r))

theorem opNot_byte (x : Nat) : opNot 1 x = 255 - x :=
  rfl

/-! ### The shifts -/

/-- The effect of a shift behind its bounds checks: the amount is checked last (R117). -/
def shifting (n : Nat) (f : Nat → Nat → Nat) (inp bits r : Word) (m : Memory) : Except Failure Memory :=
  if 8 * n < bits.toNat then .error (.invalidShiftAmount bits)
  else storing r.toNat n (fun m => f (m.valueAt inp.toNat n) bits.toNat) m

theorem shiftOp_eq_checked (n : Nat) (f : Nat → Nat → Nat) (inp bits r : Word) :
    shiftOp n f inp bits r = checked inp.toNat n (checked r.toNat n (shifting n f inp bits r)) :=
  funext (shiftOp_eq n f inp bits r)

theorem runEffect_shifting_of_lt {n : Nat} {bits : Word} (tooFar : 8 * n < bits.toNat) (s : State)
    (f : Nat → Nat → Nat) (inp r : Word) :
    s.runEffect .f3 (shifting n f inp bits r) = .next (haltedBy s (.invalidShiftAmount bits)) :=
  State.runEffect_error (if_pos tooFar)

/-- A shift by exactly the operand width is valid (R117). -/
theorem runEffect_shifting_of_le {n : Nat} {bits : Word} (valid : bits.toNat ≤ 8 * n) (s : State)
    (f : Nat → Nat → Nat) (inp r : Word) :
    s.runEffect .f3 (shifting n f inp bits r) = s.runEffect .f3
      (storing r.toNat n fun m => f (m.valueAt inp.toNat n) bits.toNat) := by
  rw [State.runEffect, State.runEffect, shifting, if_neg valid.not_gt]

/-- An instruction whose effect is a byte shift by `f` follows the rule of `f`. -/
theorem shiftRule_of_shiftOp {make : Word → Word → Word → Instr} {tag : Byte} {f : Nat → Nat → Nat}
    (encoding : ∀ inp bits r, encode (make inp bits r) = bytesF3 tag inp bits r := by intros; rfl)
    (meaning : ∀ inp bits r s, exec (make inp bits r) s = s.runEffect .f3 (shiftOp 1 f inp bits r) := by intros; rfl) :
    ShiftRule make tag f := by
  intro s inp bits r
  have chain := (meaning inp bits r s).trans (by rw [shiftOp_eq_checked])
  refine ⟨encoding inp bits r, fun hinp hr valid => ?_, fun hinp hr tooFar => ?_,
    checked_source_result_fail_in_order chain⟩
  · rw [checked_source_result_inside chain hinp hr, runEffect_shifting_of_le valid]
    exact runEffect_storing_source s rfl inp.toNat r.toNat 1 fun x => f x bits.toNat
  · rw [checked_source_result_inside chain hinp hr, runEffect_shifting_of_lt tooFar]

end Sys2Proof.Machine
end

section
/-! The unary operations (R116 to R119). -/

namespace Sys2Proof.Machine

/-- Settles O31: behind its two bounds checks NOT stores `opNot` of the source byte (`opNot_byte`). -/
theorem notByte : Obligations.NotByte := by
  intro s inp r
  have chain := exec_not_eq_checked inp r s
  refine ⟨rfl, fun hinp hr => ?_, checked_source_result_fail_in_order chain⟩
  rw [checked_source_result_inside chain hinp hr, ← opNot_byte]
  exact runEffect_storing_source s rfl inp.toNat r.toNat 1 (opNot 1)

/-- Settles O32: on a byte `opShl` keeps the result modulo 256, and `opShr` brings in zeros (`shiftRule_of_shiftOp`). -/
theorem shifts : Obligations.Shifts :=
  ⟨shiftRule_of_shiftOp (f := opShl 1), shiftRule_of_shiftOp (f := opShr)⟩

end Sys2Proof.Machine
end

section
/-! SUPPORT. What a control transfer leaves: the memory and the step after a write of the IP (R120 to R126), and the rule of the
conditional jumps. -/

namespace Sys2Proof.Machine

open Sys2Proof.Claims

/-! ### Writing the IP as the effect's last action -/

/-- A jump overrides the default advance (R87). -/
theorem Memory.byteAt_setIp_advance (m : Memory) (f : Format) (w : Word) (x : Nat) :
    ((m.advance f).setIp w).byteAt x = (m.setIp w).byteAt x := by
  rw [Memory.byteAt_setIp, Memory.byteAt_setIp]
  split_ifs
  · rfl
  · rfl
  · exact Memory.byteAt_advance_outside m f (by omega)

theorem jumped_committed (s : State) (f : Format) (target : Word) :
    Jumped s (State.committed ((s.mem.advance f).setIp target)) target := by
  refine ⟨rfl, rfl, ?_, Memory.setIp_ip _ target, fun x => ?_⟩
  · rw [State.committed_mem, Memory.setIp_params, Memory.advance_params]
  · rw [State.committed_mem, Memory.byteAt_setIp_advance, Memory.byteAt_setIp]

/-- The target is what the effect makes of the advanced memory (R91, R121). -/
theorem runEffect_jumping (s : State) (f : Format) (target : Memory → Word) :
    ∃ t, s.runEffect f (fun m => jumpToOp (target m) m) = .next t ∧ Jumped s t (target (s.mem.advance f)) :=
  ⟨_, State.runEffect_ok rfl, jumped_committed s f _⟩

theorem runEffect_emptyOp (s : State) {f : Format} {w : Nat} (hw : f.width = w) :
    ∃ t, s.runEffect f emptyOp = .next t ∧ OnlyAdvanced s w t := by
  subst hw
  exact ⟨_, State.runEffect_ok rfl, rfl, rfl, Memory.advance_params s.mem f, fun x =>
    (seenByte_eq_byteAt_advance s f x).symm⟩

/-! ### The step after a jump: the target is checked only there (R125) -/

section AfterJump

variable {s t : State} {target : Word} (jump : Jumped s t target) (legal : s.mem.params.Legal)
include jump legal

theorem runnable_of_jumped : Runnable t := by
  obtain ⟨ready, _, params, _⟩ := jump
  exact ⟨ready, params ▸ legal⟩

theorem step_of_jumped_past_memory (past : s.mem.params.memSize ≤ target.toNat) :
    step t = .next (haltedBy t (.outOfBounds target.toNat 1)) := by
  obtain ⟨no_tag, _⟩ := fetchFailures t (runnable_of_jumped jump legal)
  obtain ⟨_, _, params, ip, _⟩ := jump
  rw [ip, params] at no_tag
  exact no_tag past

theorem step_of_jumped_into_slot (slot : target.toNat < 2) : step t = .next (haltedBy t (.invalidOpcode 0x00)) := by
  obtain ⟨slot_halts, _⟩ := ipSlotCannotBeExecuted
  refine slot_halts t (runnable_of_jumped jump legal) ?_
  obtain ⟨_, _, _, ip, _⟩ := jump
  rw [ip]
  bv_omega

end AfterJump

/-! ### The jumps behind their bounds checks -/

theorem jumpThroughOp_eq_checked (addr : Word) :
    jumpThroughOp addr = checked addr.toNat 2 fun m => jumpToOp (BitVec.ofNat 16 (m.valueAt addr.toNat 2)) m :=
  funext (jumpThroughOp_eq addr)

/-- The effect of CJUMP and CJUMP_W behind their bounds checks: a JUMP_V when the operands are equal, else nothing (R122). -/
def branching (n : Nat) (a b target : Word) (m : Memory) : Except Failure Memory :=
  if m.valueAt a.toNat n = m.valueAt b.toNat n then jumpToOp target m else emptyOp m

theorem cjumpOp_eq_checked (n : Nat) (a b target : Word) :
    cjumpOp n a b target = checked a.toNat n (checked b.toNat n (branching n a b target)) := by
  funext m
  rw [cjumpOp_eq, apply_ite Except.ok]
  rfl

section Branching

variable {s : State} {n : Nat} {a b : Word}

theorem runEffect_branching_of_eq (equal : seen s 7 a.toNat n = seen s 7 b.toNat n) (target : Word) :
    s.runEffect .f3 (branching n a b target) = s.runEffect .f3 (jumpToOp target) := by
  rw [seen_f3, seen_f3] at equal
  rw [State.runEffect, State.runEffect, branching, if_pos equal]

theorem runEffect_branching_of_ne (unequal : seen s 7 a.toNat n ≠ seen s 7 b.toNat n) (target : Word) :
    s.runEffect .f3 (branching n a b target) = s.runEffect .f3 emptyOp := by
  rw [seen_f3, seen_f3] at unequal
  rw [State.runEffect, State.runEffect, branching, if_neg unequal]

end Branching

/-- Both operands are checked in field order whether or not the jump is taken (R122, R123). -/
theorem cjumpRule_of_cjumpOp {make : Word → Word → Word → Instr} {tag : Byte} {n : Nat}
    (encoding : ∀ a b target, encode (make a b target) = bytesF3 tag a b target := by intros; rfl)
    (meaning : ∀ a b target s, exec (make a b target) s = s.runEffect .f3 (cjumpOp n a b target) := by intros; rfl) :
    CjumpRule make tag n := by
  intro s a b target
  have chain := (meaning a b target s).trans (by rw [cjumpOp_eq_checked])
  refine ⟨encoding a b target, fun ha hb equal => ?_, fun ha hb unequal => ?_,
    checked_source_result_fail_in_order chain⟩
  · rw [checked_source_result_inside chain ha hb, runEffect_branching_of_eq equal]
    exact runEffect_jumping s .f3 fun _ => target
  · rw [checked_source_result_inside chain ha hb, runEffect_branching_of_ne unequal]
    exact runEffect_emptyOp s rfl

end Sys2Proof.Machine
end

section
/-! The control transfers (R120 to R126). -/

namespace Sys2Proof.Machine

open Sys2Proof.Claims

/-- Settles O33: JUMP_V has no check of its own, and the next step fetches at the target. -/
theorem jumpImmediate : Obligations.JumpImmediate := by
  intro s target
  obtain ⟨t, completes, jump⟩ := runEffect_jumping s .f1 fun _ => target
  exact ⟨rfl, t, (exec_eq_runEffect (.jumpV target) s).trans completes, jump,
    step_of_jumped_past_memory jump, step_of_jumped_into_slot jump⟩

/-- Settles O34: behind its bounds check JUMP is a JUMP_V to the pointer the effect sees. -/
theorem jumpThroughPointer : Obligations.JumpThroughPointer := by
  intro s addr
  have chain : exec (.jump addr) s = s.runEffect .f1 (checked addr.toNat 2 fun m =>
      jumpToOp (BitVec.ofNat 16 (m.valueAt addr.toNat 2)) m) :=
    (exec_eq_runEffect (.jump addr) s).trans (congrArg (s.runEffect .f1) (jumpThroughOp_eq_checked addr))
  refine ⟨rfl, fun inside => ?_, fun outside => chain.trans (runEffect_checked_outside outside _ _)⟩
  rw [chain, runEffect_checked_inside inside, seen_eq_valueAt_advance s (show Format.f1.width = 3 from rfl)]
  exact runEffect_jumping s .f1 fun m => BitVec.ofNat 16 (m.valueAt addr.toNat 2)

/-- Settles O35, by `cjumpRule_of_cjumpOp` at each width. -/
theorem conditionalJumps : Obligations.ConditionalJumps :=
  ⟨cjumpRule_of_cjumpOp, cjumpRule_of_cjumpOp⟩

end Sys2Proof.Machine
end

section
/-! SUPPORT. The comparison code at each operand width (R127), and the rule of a comparison: the checks of `BinOp`, then the
store of the code (R128, R129). -/

namespace Sys2Proof.Machine

open Sys2Proof.Claims

theorem compareCode_byte (x y : Nat) : compareCode 1 x y = if x < y then 0xFF else if x = y then 0 else 1 :=
  rfl

theorem compareCode_word (x y : Nat) : compareCode 2 x y = if x < y then 0xFFFF else if x = y then 0 else 1 :=
  rfl

theorem compareOp_eq_checked (n : Nat) (a b r : Word) :
    compareOp n a b r = checked a.toNat n (checked b.toNat n (checked r.toNat n
      (storing r.toNat n fun m => compareCode n (m.valueAt a.toNat n) (m.valueAt b.toNat n)))) :=
  funext (compareOp_eq n a b r)

/-- The code is stored as it is, without narrowing: it depends on the order of the operands alone (R127). -/
theorem binaryRule_of_compareOp {make : Word → Word → Word → Instr} {tag : Byte} {n : Nat} {f : Nat → Nat → Nat}
    (code : ∀ x y, compareCode n x y = f x y)
    (encoding : ∀ a b r, encode (make a b r) = bytesF3 tag a b r := by intros; rfl)
    (meaning : ∀ a b r s, exec (make a b r) s = s.runEffect .f3 (compareOp n a b r) := by intros; rfl) :
    BinaryRule make tag n f :=
  binaryRule_of_storing (fun x y _ _ => code x y) encoding fun a b r s => by rw [meaning, compareOp_eq_checked]

end Sys2Proof.Machine
end

section
/-! The comparisons (R127 to R129). -/

namespace Sys2Proof.Machine

/-- Settles O36, by `binaryRule_of_compareOp` at each width: "less" is all ones there. -/
theorem comparisons : Obligations.Comparisons :=
  ⟨binaryRule_of_compareOp compareCode_byte, binaryRule_of_compareOp compareCode_word⟩

end Sys2Proof.Machine
end

section
/-! SUPPORT. The rules of the moves: an immediate store, a copy, a load and a store through a pointer, each a chain of bounds
checks in front of one store (R130 to R138). -/

namespace Sys2Proof.Machine

open Sys2Proof.Claims

/-! ### Immediate stores and copies -/

theorem toNat_loByte (w : Word) : (loByte w).toNat = w.toNat % 256 := by
  rw [← ofNat_toNat_eq_loByte, BitVec.toNat_ofNat]

theorem storeOp_eq_checked (n : Nat) (addr : Word) (v : Nat) :
    storeOp n addr v = checked addr.toNat n (storing addr.toNat n fun _ => v) :=
  funext (storeOp_eq n addr v)

theorem copyOp_eq_checked (n : Nat) (src dst : Word) :
    copyOp n src dst = checked src.toNat n (checked dst.toNat n (storing dst.toNat n fun m => m.valueAt src.toNat n)) :=
  funext (copyOp_eq n src dst)

/-- What is stored does not depend on memory, the IP slot included (R130, R131). -/
theorem storeRule_of_storeOp {make : Word → Word → Instr} {tag : Byte} {n : Nat} {u v : Word → Nat}
    (immediate : ∀ value, u value = v value)
    (encoding : ∀ addr value, encode (make addr value) = bytesF2 tag addr value := by intros; rfl)
    (meaning : ∀ addr value s, exec (make addr value) s = s.runEffect .f2 (storeOp n addr (u value)) := by
      intros; rfl) : StoreRule make tag n v := by
  intro s addr value
  rw [meaning, storeOp_eq_checked, immediate]
  refine ⟨encoding addr value, fun inside => ?_, fun outside => runEffect_checked_outside outside _ _⟩
  rw [runEffect_checked_inside inside]
  exact runEffect_storing s rfl addr.toNat n fun _ => v value

/-- The value stored is the one the effect sees before the write, however the two places overlap (R132, R133). -/
theorem copyRule_of_copyOp {make : Word → Word → Instr} {tag : Byte} {n : Nat}
    (encoding : ∀ src dst, encode (make src dst) = bytesF2 tag src dst := by intros; rfl)
    (meaning : ∀ src dst s, exec (make src dst) s = s.runEffect .f2 (copyOp n src dst) := by intros; rfl) :
    CopyRule make tag n := by
  intro s src dst
  have chain := (meaning src dst s).trans (by rw [copyOp_eq_checked])
  refine ⟨encoding src dst, fun hsrc hdst => ?_, checked_source_result_fail_in_order chain⟩
  rw [checked_source_result_inside chain hsrc hdst]
  exact runEffect_storing_source s rfl src.toNat dst.toNat n fun x => x

/-! ### An instruction that checks three accesses, each with its own width -/

section ThreeAccesses

variable {s : State} {i : Instr} {f : Format} {a j b k c l : Nat} {rest : Memory → Except Failure Memory}
  (meaning : exec i s = s.runEffect f (checked a j (checked b k (checked c l rest))))
include meaning

/-- A pointer and its target are accesses of their own, and the record names the first access out of bounds (R138, R168). -/
theorem checked_accesses_fail_in_order :
    (¬Inside s a j → exec i s = .next (haltedBy s (.outOfBounds a j))) ∧
    (Inside s a j → ¬Inside s b k → exec i s = .next (haltedBy s (.outOfBounds b k))) ∧
    (Inside s a j → Inside s b k → ¬Inside s c l → exec i s = .next (haltedBy s (.outOfBounds c l))) := by
  rw [meaning]
  refine ⟨fun ha => runEffect_checked_outside ha _ _, fun ha hb => ?_, fun ha hb hc => ?_⟩
  · rw [runEffect_checked_inside ha, runEffect_checked_outside hb]
  · rw [runEffect_checked_inside ha, runEffect_checked_inside hb, runEffect_checked_outside hc]

theorem checked_accesses_inside (ha : Inside s a j) (hb : Inside s b k) (hc : Inside s c l) :
    exec i s = s.runEffect f rest := by
  rw [meaning, runEffect_checked_inside ha, runEffect_checked_inside hb, runEffect_checked_inside hc]

end ThreeAccesses

/-! ### Loads and stores through a pointer -/

/-- The pointer is read from the advanced memory (R91), and its target is then checked as a direct operand is (R134, R135). -/
theorem runEffect_getOp (s : State) (n : Nat) (fromP dst : Word) :
    s.runEffect .f2 (getOp n fromP dst) = s.runEffect .f2
      (checked fromP.toNat 2 (checked (seen s 5 fromP.toNat 2) n (checked dst.toNat n
        (storing dst.toNat n fun m => m.valueAt (seen s 5 fromP.toNat 2) n)))) := by
  rw [seen_eq_valueAt_advance s (show Format.f2.width = 5 from rfl), State.runEffect, getOp_eq]
  rfl

/-- As for the load, with the pointer's target as the destination (R136, R137). -/
theorem runEffect_setOp (s : State) (n : Nat) (src toP : Word) :
    s.runEffect .f2 (setOp n src toP) = s.runEffect .f2
      (checked src.toNat n (checked toP.toNat 2 (checked (seen s 5 toP.toNat 2) n
        (storing (seen s 5 toP.toNat 2) n fun m => m.valueAt src.toNat n)))) := by
  rw [seen_eq_valueAt_advance s (show Format.f2.width = 5 from rfl), State.runEffect, setOp_eq]
  rfl

theorem getRule_of_getOp {make : Word → Word → Instr} {tag : Byte} {n : Nat}
    (encoding : ∀ fromP dst, encode (make fromP dst) = bytesF2 tag fromP dst := by intros; rfl)
    (meaning : ∀ fromP dst s, exec (make fromP dst) s = s.runEffect .f2 (getOp n fromP dst) := by intros; rfl) :
    GetRule make tag n := by
  intro s fromP dst p
  have chain := (meaning fromP dst s).trans (runEffect_getOp s n fromP dst)
  refine ⟨encoding fromP dst, fun hfrom hp hdst => ?_, checked_accesses_fail_in_order chain⟩
  rw [checked_accesses_inside chain hfrom hp hdst]
  exact runEffect_storing_source s rfl p dst.toNat n fun x => x

theorem setRule_of_setOp {make : Word → Word → Instr} {tag : Byte} {n : Nat}
    (encoding : ∀ src toP, encode (make src toP) = bytesF2 tag src toP := by intros; rfl)
    (meaning : ∀ src toP s, exec (make src toP) s = s.runEffect .f2 (setOp n src toP) := by intros; rfl) :
    SetRule make tag n := by
  intro s src toP p
  have chain := (meaning src toP s).trans (runEffect_setOp s n src toP)
  refine ⟨encoding src toP, fun hsrc hto hp => ?_, checked_accesses_fail_in_order chain⟩
  rw [checked_accesses_inside chain hsrc hto hp]
  exact runEffect_storing_source s rfl src.toNat p n fun x => x

end Sys2Proof.Machine
end

section
/-! The data movement instructions (R130 to R138). -/

namespace Sys2Proof.Machine

/-- Settles O37: bits 15..8 of the immediate do not reach the byte stored (`toNat_loByte`). -/
theorem setImmediateByte : Obligations.SetImmediateByte :=
  storeRule_of_storeOp toNat_loByte

/-- Settles O38: the immediate is stored as it is. -/
theorem setImmediateWord : Obligations.SetImmediateWord :=
  storeRule_of_storeOp fun _ => rfl

/-- Settles O39, by `copyRule_of_copyOp` at each width. -/
theorem copies : Obligations.Copies :=
  ⟨copyRule_of_copyOp, copyRule_of_copyOp⟩

/-- Settles O40, by `getRule_of_getOp` at each width: the pointer is two bytes at both. -/
theorem indirectLoads : Obligations.IndirectLoads :=
  ⟨getRule_of_getOp, getRule_of_getOp⟩

/-- Settles O41, by `setRule_of_setOp` at each width: the pointer is two bytes at both. -/
theorem indirectStores : Obligations.IndirectStores :=
  ⟨setRule_of_setOp, setRule_of_setOp⟩

end Sys2Proof.Machine
end

section
/-! SUPPORT. The bare IP advance seen as a transfer of control (R87, R139), and the step at a NOP (R83, R86). -/

namespace Sys2Proof.Machine

open Sys2Proof.Claims

/-- The bare advance is the transfer to the advanced IP, so what the next step does at a jump's target holds after it too. -/
theorem jumped_of_onlyAdvanced {s t : State} {w : Nat} (advanced : OnlyAdvanced s w t) : Jumped s t (nextIp s w) := by
  obtain ⟨ready, no_record, params, bytes⟩ := advanced
  have ip : t.mem.ip = nextIp s w :=
    calc t.mem.ip
      _ = fieldOf (t.mem.byteAt 0) (t.mem.byteAt 1) := Memory.ip_eq_fieldOf t.mem
      _ = fieldOf (loByte (nextIp s w)) (hiByte (nextIp s w)) := by rw [bytes 0, bytes 1]; rfl
      _ = nextIp s w := fieldOf_bytes _
  exact ⟨ready, no_record, params, ip, bytes⟩

/-- The default advance is modulo 2^16 (R87). -/
theorem nextIp_toNat (s : State) (w : Nat) : (nextIp s w).toNat = (s.mem.ip.toNat + w) % 65536 := by
  rw [nextIp, BitVec.toNat_add, BitVec.toNat_ofNat, Nat.add_mod_mod]

theorem exec_nop_onlyAdvanced (s : State) : ∃ t, exec .nop s = .next t ∧ OnlyAdvanced s 1 t := by
  rw [exec_eq_runEffect]
  exact runEffect_emptyOp s rfl

/-- The record of NOP is its tag alone, so it is fetched whole wherever its tag is. -/
theorem step_of_nop_tag {s : State} (hs : Runnable s) (inside : s.mem.ip.toNat < s.mem.params.memSize)
    (tag : s.mem.byteAt s.mem.ip.toNat = 0x20) : step s = exec .nop s := by
  have record : s.mem.bytes s.mem.ip.toNat Instr.nop.width = encode .nop := congrArg (fun b => [b]) tag
  exact step_of_decodeAt_instr hs (decodeAt_eq_instr_iff.mpr ⟨inside, record, rfl⟩)

theorem step_onlyAdvanced_of_nop_tag {s : State} (hs : Runnable s) (inside : s.mem.ip.toNat < s.mem.params.memSize)
    (tag : s.mem.byteAt s.mem.ip.toNat = 0x20) : ∃ t, step s = .next t ∧ OnlyAdvanced s 1 t := by
  rw [step_of_nop_tag hs inside tag]
  exact exec_nop_onlyAdvanced s

end Sys2Proof.Machine
end

section
/-! NOP (R139). -/

namespace Sys2Proof.Machine

open Sys2Proof.Claims

/-- Settles O42: the advance from the last byte is a transfer to MEM_SIZE mod 2^16, which lies past memory, or is the IP slot when
MEM_SIZE is 2^16. -/
theorem nopAdvancesOnly : Obligations.NopAdvancesOnly := by
  refine ⟨rfl, exec_nop_onlyAdvanced, fun s => step_onlyAdvanced_of_nop_tag, fun s hs last tag => ?_⟩
  obtain ⟨t, completes, advanced⟩ := step_onlyAdvanced_of_nop_tag hs (by omega) tag
  have jump : Jumped s t (nextIp s 1) := jumped_of_onlyAdvanced advanced
  have target : (nextIp s 1).toNat = s.mem.params.memSize % 65536 := by rw [nextIp_toNat, last]
  obtain ⟨_, legal⟩ := hs
  refine ⟨t, completes, ?_, fun below => ?_, fun whole => ?_⟩
  · obtain ⟨_, _, _, ip, _⟩ := jump
    rw [ip, target]
  · rw [Nat.mod_eq_of_lt below] at target
    rw [step_of_jumped_past_memory jump legal target.ge, target]
  · exact step_of_jumped_into_slot jump legal (by omega)

end Sys2Proof.Machine
end

section
/-! SUPPORT. Every instruction has at least its tag. -/

namespace Sys2Proof

theorem Instr.width_pos (i : Instr) : 0 < i.width :=
  Nat.add_pos_left Nat.one_pos _

end Sys2Proof
end

section
/-! SUPPORT. The range walk (R148): how it unrolls, what it reads (R152), and what it makes of whole instructions (R149, R151). -/

namespace Sys2Proof.Machine

open Sys2Proof.Claims

/-! ### One line -/

/-- `FormatAt` answers a line exactly for an instruction that lies whole below the limit (R142). -/
theorem decodeAt_of_formatAt_line {m : Memory} {c limit : Nat} {text : String} {w : Nat}
    (h : formatAt m c limit = .line text w) :
    ∃ i rest, decodeAt m c limit = .instr i rest ∧ text = render c i ∧ w = i.width := by
  cases hd : decodeAt m c limit with
  | instr i rest =>
    cases (formatAt_of_decodeAt_instr hd).symm.trans h
    exact ⟨i, rest, rfl, rfl, rfl⟩
  | invalidOpcode tag => cases (formatAt_of_decodeAt_invalidOpcode hd).symm.trans h
  | truncated tag w => cases (formatAt_of_decodeAt_truncated hd).symm.trans h
  | empty => cases (formatAt_of_decodeAt_empty hd).symm.trans h

/-- A line names the instruction whose encoding stands there, and its width takes the walk no further than the limit. -/
theorem encoding_of_formatAt_line {m : Memory} {c limit : Nat} {text : String} {w : Nat}
    (h : formatAt m c limit = .line text w) :
    ∃ i : Instr, text = render c i ∧ w = i.width ∧ c + i.width ≤ limit ∧ m.bytes c i.width = encode i := by
  obtain ⟨i, _, decoded, htext, hw⟩ := decodeAt_of_formatAt_line h
  obtain ⟨fits, there, _⟩ := decodeAt_eq_instr_iff.mp decoded
  exact ⟨i, htext, hw, fits, there⟩

theorem formatAt_of_encoding {m : Memory} {c limit : Nat} {i : Instr} (fits : c + i.width ≤ limit)
    (there : m.bytes c i.width = encode i) : formatAt m c limit = .line (render c i) i.width :=
  formatAt_of_decodeAt_instr (decodeAt_eq_instr_iff.mpr ⟨fits, there, rfl⟩)

/-- Below the limit there is a tag, so the two other stops are all there are (R142). -/
theorem status_of_formatAt_stop {m : Memory} {c limit : Nat} {text : String} {status : WalkStatus} (h : c < limit)
    (stops : formatAt m c limit = .stop text status) :
    ∃ tag, status = .unrecognised c tag ∨ status = .truncated c tag := by
  obtain ⟨past, _⟩ | ⟨_, _, invalid⟩ | ⟨_, _, _, _, cut⟩ | ⟨_, _, _, _, decoded⟩ := decodingIsTotal m c limit
  · omega
  · cases (formatAt_of_decodeAt_invalidOpcode invalid).symm.trans stops
    exact ⟨_, .inl rfl⟩
  · cases (formatAt_of_decodeAt_truncated cut).symm.trans stops
    exact ⟨_, .inr rfl⟩
  · cases (formatAt_of_decodeAt_instr decoded).symm.trans stops

/-! ### The walk and its fuel -/

theorem walk_past_end (m : Memory) {stop c : Nat} (h : stop ≤ c) (fuel : Nat) : walk m stop fuel c = ([], .complete) := by
  cases fuel with
  | zero => rfl
  | succ fuel => rw [walk, if_neg (by omega)]

theorem walk_succ_of_stop {m : Memory} {stop c : Nat} {text : String} {status : WalkStatus} (h : c < stop)
    (stops : formatAt m c stop = .stop text status) (fuel : Nat) : walk m stop (fuel + 1) c = ([text], status) := by
  rw [walk, if_pos h, stops]

theorem walk_succ_of_line {m : Memory} {stop c : Nat} {text : String} {w : Nat} (h : c < stop)
    (line : formatAt m c stop = .line text w) (fuel : Nat) :
    walk m stop (fuel + 1) c = (text :: (walk m stop fuel (c + w)).1, (walk m stop fuel (c + w)).2) := by
  rw [walk, if_pos h, line]

/-- Fuel for one instruction a byte is enough: more of it makes the same walk. -/
theorem walk_enough_fuel (m : Memory) (stop : Nat) : ∀ (fuel more c : Nat), stop - c ≤ fuel →
    walk m stop (fuel + more) c = walk m stop fuel c := by
  intro fuel
  induction fuel with
  | zero => intro more c enough; rw [walk_past_end m (by omega), walk_past_end m (by omega)]
  | succ fuel ih =>
    intro more c enough
    by_cases h : c < stop
    · rw [Nat.add_right_comm]
      cases hf : formatAt m c stop with
      | stop text status => rw [walk_succ_of_stop h hf, walk_succ_of_stop h hf]
      | line text w =>
        obtain ⟨i, _, rfl, _⟩ := encoding_of_formatAt_line hf
        have forward := i.width_pos
        rw [walk_succ_of_line h hf, walk_succ_of_line h hf, ih more _ (by omega)]
    · rw [walk_past_end m (by omega), walk_past_end m (by omega)]

/-! ### The walk of a range -/

section Range

variable {m : Memory} {start stop : Nat}

theorem disassemble_past_memory (past : m.size < stop) : disassemble m start stop = ([], .rangeOutOfBounds stop) :=
  if_pos past

theorem disassemble_of_empty_range (inside : stop ≤ m.size) (empty : stop ≤ start) :
    disassemble m start stop = ([], .complete) := by
  rw [disassemble, if_neg (by omega), walk_past_end m empty]

theorem disassemble_of_formatAt_line {text : String} {w : Nat} (inside : stop ≤ m.size) (nonempty : start < stop)
    (line : formatAt m start stop = .line text w) :
    disassemble m start stop = (text :: (disassemble m (start + w) stop).1, (disassemble m (start + w) stop).2) := by
  obtain ⟨i, _, rfl, fits, _⟩ := encoding_of_formatAt_line line
  obtain ⟨k, hk⟩ := Nat.exists_eq_add_of_lt i.width_pos
  have fuel : stop - start = stop - (start + i.width) + k + 1 := by omega
  rw [disassemble, disassemble, if_neg (by omega), if_neg (by omega), fuel, walk_succ_of_line nonempty line,
    walk_enough_fuel m stop _ k _ le_rfl]

/-! ### The walk over whole instructions -/

/-- The bytes of a range in two parts. -/
theorem Memory.bytes_range (m : Memory) {w : Nat} (fits : start + w ≤ stop) :
    m.bytes start (stop - start) = m.bytes start w ++ m.bytes (start + w) (stop - (start + w)) := by
  rw [← Memory.bytes_add]
  congr 1
  omega

/-- The walk reads the instruction in front of it and goes on behind it (R148). -/
theorem disassemble_of_encoding {i : Instr} (inside : stop ≤ m.size) (fits : start + i.width ≤ stop)
    (there : m.bytes start i.width = encode i) :
    disassemble m start stop =
      (render start i :: (disassemble m (start + i.width) stop).1, (disassemble m (start + i.width) stop).2) := by
  have forward := i.width_pos
  exact disassemble_of_formatAt_line inside (by omega) (formatAt_of_encoding fits there)

/-- The walk of a range that holds the encodings of `is` is complete, and gives their lines (R149). -/
theorem disassemble_of_encodings (inside : stop ≤ m.size) (is : List Instr) : ∀ {start : Nat}, start ≤ stop →
    m.bytes start (stop - start) = is.flatMap encode → disassemble m start stop = (sweepLines start is, .complete) := by
  induction is with
  | nil =>
    intro start _ holds
    have no_bytes := congrArg List.length holds
    rw [Memory.bytes_length, List.flatMap_nil, List.length_nil] at no_bytes
    exact disassemble_of_empty_range inside (by omega)
  | cons i rest ih =>
    intro start ordered holds
    rw [List.flatMap_cons] at holds
    have lengths := congrArg List.length holds
    rw [Memory.bytes_length, List.length_append, encode_length] at lengths
    have fits : start + i.width ≤ stop := by omega
    rw [Memory.bytes_range m fits] at holds
    have same_length : (m.bytes start i.width).length = (encode i).length := by
      rw [Memory.bytes_length, encode_length]
    obtain ⟨there, follow⟩ := List.append_inj holds same_length
    rw [disassemble_of_encoding inside fits there, ih fits follow]
    rfl

end Range

/-- All that a walk within memory can end in: Complete, over a range of whole instructions, or at an instruction it cannot
read (R149). -/
theorem disassemble_outcomes {m : Memory} {start stop : Nat} (inside : stop ≤ m.size) (ordered : start ≤ stop) :
    (∃ is : List Instr, m.bytes start (stop - start) = is.flatMap encode) ∨
      ∃ c tag, (disassemble m start stop).2 = .unrecognised c tag ∨ (disassemble m start stop).2 = .truncated c tag := by
  obtain rfl | nonempty := ordered.eq_or_lt
  · exact .inl ⟨[], by rw [Nat.sub_self]; rfl⟩
  · cases hf : formatAt m start stop with
    | stop text status =>
      rw [disassemble_of_formatAt_stop nonempty inside hf]
      exact .inr ⟨start, status_of_formatAt_stop nonempty hf⟩
    | line text w =>
      obtain ⟨i, _, rfl, fits, there⟩ := encoding_of_formatAt_line hf
      have forward := i.width_pos
      rw [disassemble_of_formatAt_line inside nonempty hf]
      obtain ⟨is, follow⟩ | unread := disassemble_outcomes inside fits
      · exact .inl ⟨i :: is, by rw [Memory.bytes_range m fits, there, follow, List.flatMap_cons]⟩
      · exact .inr unread
termination_by stop - start

/-! ### What the walk reads -/

theorem decodeAt_congr {m m' : Memory} {c limit : Nat} (same : ∀ a, c ≤ a → a < limit → m.byteAt a = m'.byteAt a) :
    decodeAt m c limit = decodeAt m' c limit := by
  rw [decodeAt, decodeAt, Memory.bytes_congr _ c fun a from_c below => same a from_c (by omega)]

theorem formatAt_congr {m m' : Memory} {c limit : Nat} (same : ∀ a, c ≤ a → a < limit → m.byteAt a = m'.byteAt a) :
    formatAt m c limit = formatAt m' c limit := by
  rw [formatAt, formatAt, decodeAt_congr same]

/-- The walk sees the bytes from its address to its end and no others (R152). -/
theorem walk_congr {m m' : Memory} {stop : Nat} : ∀ (fuel c : Nat),
    (∀ a, c ≤ a → a < stop → m.byteAt a = m'.byteAt a) → walk m stop fuel c = walk m' stop fuel c := by
  intro fuel
  induction fuel with
  | zero => intro c _; rfl
  | succ fuel ih =>
    intro c same
    by_cases h : c < stop
    · cases hf : formatAt m' c stop with
      | stop text status =>
        rw [walk_succ_of_stop h hf, walk_succ_of_stop h ((formatAt_congr same).trans hf)]
      | line text w =>
        rw [walk_succ_of_line h hf, walk_succ_of_line h ((formatAt_congr same).trans hf),
          ih (c + w) fun a from_next => same a (by omega)]
    · rw [walk_past_end m (by omega), walk_past_end m' (by omega)]

end Sys2Proof.Machine
end

section
/-! The range walk (R147 to R152) and the purity of the disassembler (R140). -/

namespace Sys2Proof.Machine

open Sys2Proof.Claims

/-- Settles O53: a range of encodings gives its instructions' lines (`disassemble_of_encodings`), and a range that is none ends
at an unrecognised or truncated code (`disassemble_outcomes`). -/
theorem completeWalks : Obligations.CompleteWalks := by
  intro m start stop ordered inside
  have complete {is : List Instr} (holds : m.bytes start (stop - start) = is.flatMap encode) :=
    disassemble_of_encodings inside is ordered holds
  refine ⟨fun c out => ?_, ⟨fun completes => ?_, fun ⟨is, holds⟩ => ?_⟩, fun is holds => ?_⟩
  · obtain ⟨is, holds⟩ | ⟨_, _, unread | unread⟩ := disassemble_outcomes inside ordered
    · rw [complete holds] at out
      cases out
    · cases unread.symm.trans out
    · cases unread.symm.trans out
  · obtain whole | ⟨_, _, unread | unread⟩ := disassemble_outcomes inside ordered
    · exact whole
    · cases unread.symm.trans completes
    · cases unread.symm.trans completes
  · rw [complete holds]
  · rw [complete holds]

/-- Settles O52, by what `FormatAt` answers at `start`. -/
theorem walkUnrolls : Obligations.WalkUnrolls := by
  intro m start stop
  refine ⟨disassemble_past_memory, disassemble_of_empty_range, fun inside nonempty => ?_⟩
  cases hf : formatAt m start stop with
  | stop text status => exact disassemble_of_formatAt_stop nonempty inside hf
  | line text w => exact disassemble_of_formatAt_line inside nonempty hf

/-- Settles O54: the bounds test reads MEM_SIZE, the walk the bytes of the range (`walk_congr`). -/
theorem walkReadsOnlyItsRange : Obligations.WalkReadsOnlyItsRange := by
  intro m m' start stop size same
  rw [disassemble, disassemble, Memory.size, Memory.size, size, walk_congr _ start same]

/-- Settles O51: both transactions keep the state and answer from memory alone. -/
theorem disassemblerChangesNothing : Obligations.DisassemblerChangesNothing := by
  intro s c limit start stop
  refine ⟨?_, rfl, ⟨_, _, rfl⟩, fun s' same => ⟨?_, ?_⟩⟩
  · rw [transact]
    split <;> rfl
  · rw [transact, transact, same]
    split <;> rfl
  · rw [transact, transact, same]

/-- Settles O56: the bytes of the examples, walked. -/
theorem disassemblyExamples : Obligations.DisassemblyExamples := by
  unfold Obligations.DisassemblyExamples
  decide

end Sys2Proof.Machine
end

section
/-! SUPPORT. The rendered text: hexadecimal digits (R144), the rows of R66 in the model's table and in the statements', and the
width a tag selects. -/

namespace Sys2Proof

open Sys2Proof.Machine Sys2Proof.Claims

/-! ### Hexadecimal numbers -/

theorem ofList_hexDigit (d : Nat) : String.ofList [hexDigit (d % 16)] = upperDigit (d % 16) := by
  have digits : ∀ d < 16, String.ofList [hexDigit d] = upperDigit d := by decide
  exact digits _ (Nat.mod_lt d (by decide))

theorem hex4_eq_fourDigits {v : Nat} (h : v < 65536) : hex4 v = fourDigits v := by
  have top : v / 4096 % 16 = v / 4096 := Nat.mod_eq_of_lt (by omega)
  rw [fourDigits, ← top, ← ofList_hexDigit, ← ofList_hexDigit, ← ofList_hexDigit,
    ← ofList_hexDigit]
  simp only [hex4, String.append_assoc, ← String.ofList_append, List.cons_append, List.nil_append]

theorem hex2_eq_twoDigits (b : Byte) : hex2 b = twoDigits b.toNat := by
  have top : b.toNat / 16 % 16 = b.toNat / 16 := Nat.mod_eq_of_lt (by have := b.isLt; omega)
  rw [twoDigits, ← top, ← ofList_hexDigit, ← ofList_hexDigit]
  simp only [hex2, String.append_assoc, ← String.ofList_append, List.cons_append, List.nil_append]

/-! ### The table -/

/-- The statements' row of an instruction is the model's, without the format and the kinds of the fields. -/
theorem tableRow_eq_row (i : Instr) :
    tableRow i = (i.row.tag, i.row.mnemonic, i.row.fields.map fun f => (f.name, f.value)) := by
  cases i <;> rfl

theorem encode_eq_tableRow (i : Instr) :
    encode i = (tableRow i).1 :: (tableRow i).2.2.flatMap fun f => [loByte f.2, hiByte f.2] := by
  rw [tableRow_eq_row, List.flatMap_map]
  rfl

/-- The tag selects the format, so the width (R59, R67). -/
theorem Shape.width_of_makes {sh : Shape} {tag : Byte} (enc : sh.EncodedUnder tag) {i : Instr} (made : sh.Makes i) :
    sh.format.width = i.width := by
  rw [← encode_length]
  cases sh with
  | f0 j =>
    obtain rfl := made
    rw [enc]
    rfl
  | f1 make =>
    obtain ⟨x, rfl⟩ := made
    rw [enc]
    rfl
  | f2 make =>
    obtain ⟨x, y, rfl⟩ := made
    rw [enc]
    rfl
  | f3 make =>
    obtain ⟨x, y, z, rfl⟩ := made
    rw [enc]
    rfl

theorem rom_row_tag_width (i : Instr) : ∃ sh, rom i.row.tag = some sh ∧ sh.Makes i ∧ sh.format.width = i.width := by
  obtain ⟨sh, hrom, made⟩ := rom_row_tag i
  exact ⟨sh, hrom, made, Shape.width_of_makes (encodedUnder_of_rom hrom) made⟩

/-! ### The line -/

theorem fieldTexts_eq_join (fields : List Field) :
    fieldTexts (fields.map fun f => (f.name, f.value)) = String.join (fields.map renderField) := by
  induction fields with
  | nil => rfl
  | cons f rest ih =>
    rw [List.map_cons, List.map_cons, String.join_cons, fieldTexts, ih, renderField, hex4_eq_fourDigits f.value.isLt]

theorem render_eq_lineOf {c : Nat} (h : c < 65536) (i : Instr) : render c i = lineOf c i := by
  rw [render, Instr.text, lineOf, tableRow_eq_row, fieldTexts_eq_join, hex4_eq_fourDigits h, ← String.append_assoc]

end Sys2Proof
end

section
/-! The lines of the formatter (R142 to R144). -/

namespace Sys2Proof.Machine

open Sys2Proof.Claims

/-- Settles O57: the outcomes of decoding (O4) at each kind of address, their texts in the statements' own spelling
(`render_eq_lineOf`, `hex4_eq_fourDigits`). -/
theorem formattedLines : Obligations.FormattedLines := by
  refine ⟨encode_eq_tableRow, fun _ => hex4_eq_fourDigits, hex2_eq_twoDigits, fun _ i h => render_eq_lineOf h i,
    fun m c limit hc => ⟨fun i fits there => ?_, fun past => ?_, fun inside outside => ?_, fun i inside tag cut => ?_⟩⟩
  · rw [encode_length] at fits there ⊢
    rw [formatAt_of_encoding fits there, render_eq_lineOf hc]
  · rw [formatAt_of_decodeAt_empty (decodeAt_outside past), hex4_eq_fourDigits hc]
  · have invalid := decodeAt_of_rom_none inside ((rom_eq_none_iff _).mpr outside)
    rw [formatAt_of_decodeAt_invalidOpcode invalid, hex4_eq_fourDigits hc, hex2_eq_twoDigits]
  · obtain ⟨sh, hrom, _, width⟩ := rom_row_tag_width i
    have tag : m.byteAt c = i.row.tag := tag.trans (by rw [tableRow_eq_row])
    rw [encode_length, ← width] at cut
    have truncated := decodeAt_of_record_past inside (tag ▸ hrom) cut
    rw [formatAt_of_decodeAt_truncated truncated, hex4_eq_fourDigits hc, hex2_eq_twoDigits]

end Sys2Proof.Machine
end

section
/-! SUPPORT. The order of the checks (R168): every effect is its accesses, checked in the order the decode table gives, in front
of a rest that can only make the value check. -/

namespace Sys2Proof.Machine

open Sys2Proof.Claims

/-! ### A list of bounds checks -/

/-- An effect behind the bounds checks of a list of accesses, the first one outermost (R12). -/
def guarded (accesses : List (Nat × Nat)) (rest : Memory → Except Failure Memory) : Memory → Except Failure Memory :=
  accesses.foldr (fun x => checked x.1 x.2) rest

/-- The first access that leaves memory, as `effectFailure` looks for it. -/
def firstOutside (s : State) (accesses : List (Nat × Nat)) : Option (Nat × Nat) :=
  accesses.find? fun x => decide (s.mem.params.memSize < x.1 + x.2)

section Guarded

variable {s : State}

theorem firstOutside_cons_outside {x : Nat × Nat} (outside : s.mem.params.memSize < x.1 + x.2)
    (accesses : List (Nat × Nat)) : firstOutside s (x :: accesses) = some x :=
  List.find?_cons_of_pos (decide_eq_true outside)

theorem firstOutside_cons_inside {x : Nat × Nat} (inside : ¬ s.mem.params.memSize < x.1 + x.2)
    (accesses : List (Nat × Nat)) : firstOutside s (x :: accesses) = firstOutside s accesses :=
  List.find?_cons_of_neg (by simpa using inside)

theorem runEffect_guarded_cons_inside {x : Nat × Nat} (inside : ¬ s.mem.params.memSize < x.1 + x.2)
    (accesses : List (Nat × Nat)) (f : Format) (rest : Memory → Except Failure Memory) :
    s.runEffect f (guarded (x :: accesses) rest) = s.runEffect f (guarded accesses rest) :=
  runEffect_checked_inside (Nat.le_of_not_lt inside) f _

theorem runEffect_guarded_of_outside {x : Nat × Nat} (f : Format) (rest : Memory → Except Failure Memory)
    {accesses : List (Nat × Nat)} (first : firstOutside s accesses = some x) :
    s.runEffect f (guarded accesses rest) = .next (haltedBy s (.outOfBounds x.1 x.2)) := by
  induction accesses with
  | nil => cases first
  | cons y accesses ih =>
    by_cases outside : s.mem.params.memSize < y.1 + y.2
    · rw [firstOutside_cons_outside outside] at first
      cases first
      exact runEffect_checked_outside (Nat.not_le_of_lt outside) f _
    · rw [firstOutside_cons_inside outside] at first
      rw [runEffect_guarded_cons_inside outside, ih first]

theorem runEffect_guarded_of_inside (f : Format) (rest : Memory → Except Failure Memory)
    {accesses : List (Nat × Nat)} (first : firstOutside s accesses = none) :
    s.runEffect f (guarded accesses rest) = s.runEffect f rest := by
  induction accesses with
  | nil => rfl
  | cons y accesses ih =>
    by_cases outside : s.mem.params.memSize < y.1 + y.2
    · rw [firstOutside_cons_outside outside] at first
      cases first
    · rw [firstOutside_cons_inside outside] at first
      rw [runEffect_guarded_cons_inside outside, ih first]

end Guarded

/-! ### The checks of every instruction -/

/-- The result of an effect is this failure, or a memory when there is none. -/
def ResultIs (r : Except Failure Memory) : Option Failure → Prop
  | some e => r = .error e
  | none => ∃ m, r = .ok m

/-- The meaning of an instruction is its accesses, checked in field order, and then its value check (R168). -/
def ChecksInOrder (s : State) (i : Instr) : Prop :=
  ∃ rest, exec i s = s.runEffect i.row.format (guarded (effectAccesses s i) rest) ∧
    ResultIs (rest (s.mem.advance i.row.format)) (valueFailure s i)

section Families

variable {s : State} {i : Instr}

/-- An instruction without a value check. -/
theorem checksInOrder_of_no_value {rest : Memory → Except Failure Memory}
    (meaning : exec i s = s.runEffect i.row.format (guarded (effectAccesses s i) rest))
    (completes : ∀ m, ∃ m', rest m = .ok m') (no_check : valueFailure s i = none := by rfl) : ChecksInOrder s i :=
  ⟨rest, meaning, no_check ▸ completes _⟩

/-- DIV and DIV_W: the divisor is the value the effect sees, checked last (R100, R104). -/
theorem checksInOrder_of_dividing {n : Nat} {a b r : Word} (format : i.row.format = .f3 := by rfl)
    (meaning : exec i s = s.runEffect i.row.format (guarded (effectAccesses s i) (dividing n a b r)))
    (check : valueFailure s i = if seen s 7 b.toNat n = 0 then some .divisionByZero else none := by rfl) :
    ChecksInOrder s i := by
  refine ⟨_, meaning, ?_⟩
  rw [check, format, dividing, ← seen_f3]
  split
  · rfl
  · exact ⟨_, rfl⟩

/-- LSHIFT and RSHIFT: the amount is the field itself, checked last (R117). -/
theorem checksInOrder_of_shifting {f : Nat → Nat → Nat} {inp bits r : Word}
    (meaning : exec i s = s.runEffect i.row.format (guarded (effectAccesses s i) (shifting 1 f inp bits r)))
    (check : valueFailure s i = if 8 < bits.toNat then some (.invalidShiftAmount bits) else none := by rfl) :
    ChecksInOrder s i := by
  refine ⟨_, meaning, ?_⟩
  rw [check, shifting]
  split
  · rfl
  · exact ⟨_, rfl⟩

end Families

theorem storing_completes (a n : Nat) (value : Memory → Nat) (m : Memory) : ∃ m', storing a n value m = .ok m' :=
  ⟨_, rfl⟩

theorem branching_completes (n : Nat) (a b target : Word) (m : Memory) : ∃ m', branching n a b target m = .ok m' := by
  rw [branching]
  split
  · exact ⟨_, rfl⟩
  · exact ⟨_, rfl⟩

/-- One line per family: the chain of checks is the one the instruction's own rule was proved from. -/
theorem checksInOrder (s : State) (i : Instr) : ChecksInOrder s i := by
  have meaning {e : Memory → Except Failure Memory} (h : effectOf i = e) : exec i s = s.runEffect i.row.format e :=
    h ▸ exec_eq_runEffect i s
  cases i with
  | add a b r | sub a b r | mul a b r | and a b r | or a b r | xor a b r | addW a b r | subW a b r | mulW a b r
  | andW a b r | orW a b r | xorW a b r =>
    exact checksInOrder_of_no_value (meaning (binOp_eq_checked _ _ a b r)) (storing_completes _ _ _)
  | cmp a b r | cmpW a b r =>
    exact checksInOrder_of_no_value (meaning (compareOp_eq_checked _ a b r)) (storing_completes _ _ _)
  | div a b r => exact checksInOrder_of_dividing rfl (meaning (divOp_eq_checked 1 a b r))
  | divW a b r => exact checksInOrder_of_dividing rfl (meaning (divOp_eq_checked 2 a b r))
  | not inp r => exact checksInOrder_of_no_value (meaning (notOp_eq_checked 1 inp r)) (storing_completes _ _ _)
  | lshift inp bits r | rshift inp bits r =>
    exact checksInOrder_of_shifting (meaning (shiftOp_eq_checked 1 _ inp bits r))
  | jumpV addr => exact checksInOrder_of_no_value (meaning rfl) fun _ => ⟨_, rfl⟩
  | jump addr => exact checksInOrder_of_no_value (meaning (jumpThroughOp_eq_checked addr)) fun _ => ⟨_, rfl⟩
  | cjump a b addr | cjumpW a b addr =>
    exact checksInOrder_of_no_value (meaning (cjumpOp_eq_checked _ a b addr)) (branching_completes _ a b addr)
  | setV addr value | setVW addr value =>
    exact checksInOrder_of_no_value (meaning (storeOp_eq_checked _ addr _)) (storing_completes _ _ _)
  | copy src dst | copyW src dst =>
    exact checksInOrder_of_no_value (meaning (copyOp_eq_checked _ src dst)) (storing_completes _ _ _)
  | get fromP dst | getW fromP dst =>
    exact checksInOrder_of_no_value ((meaning rfl).trans (runEffect_getOp s _ fromP dst)) (storing_completes _ _ _)
  | set src toP | setW src toP =>
    exact checksInOrder_of_no_value ((meaning rfl).trans (runEffect_setOp s _ src toP)) (storing_completes _ _ _)
  | nop => exact checksInOrder_of_no_value (meaning rfl) fun _ => ⟨_, rfl⟩

/-! ### The first failure of an effect and of a step -/

theorem effectFailure_of_outside {s : State} {i : Instr} {x : Nat × Nat}
    (first : firstOutside s (effectAccesses s i) = some x) : effectFailure s i = some (.outOfBounds x.1 x.2) := by
  rw [firstOutside] at first
  rw [effectFailure, first]

theorem effectFailure_of_inside {s : State} {i : Instr} (first : firstOutside s (effectAccesses s i) = none) :
    effectFailure s i = valueFailure s i := by
  rw [firstOutside] at first
  rw [effectFailure, first]

/-- An instruction halts with the first failure of its effect, and commits when there is none (R89, R168). -/
theorem exec_of_effectFailure (s : State) (i : Instr) :
    (∀ e, effectFailure s i = some e → exec i s = .next (haltedBy s e)) ∧
    (effectFailure s i = none → ∃ m, exec i s = .next (State.committed m)) := by
  obtain ⟨rest, meaning, result⟩ := checksInOrder s i
  cases first : firstOutside s (effectAccesses s i) with
  | some x =>
    rw [meaning, runEffect_guarded_of_outside _ _ first, effectFailure_of_outside first]
    exact ⟨fun e he => by cases he; rfl, fun he => by cases he⟩
  | none =>
    rw [meaning, runEffect_guarded_of_inside _ _ first, effectFailure_of_inside first]
    refine ⟨fun e he => ?_, fun he => ?_⟩
    · rw [he] at result
      exact State.runEffect_error result
    · rw [he] at result
      obtain ⟨m, hm⟩ := result
      exact ⟨m, State.runEffect_ok hm⟩

section StepFailure

variable {s : State}

theorem stepFailure_of_past (past : s.mem.params.memSize ≤ s.mem.ip.toNat) :
    stepFailure s = some (.outOfBounds s.mem.ip.toNat 1) :=
  if_pos (Nat.lt_succ_of_le past)

theorem stepFailure_of_rom_none (inside : s.mem.ip.toNat < s.mem.params.memSize)
    (invalid : rom (s.mem.byteAt s.mem.ip.toNat) = none) :
    stepFailure s = some (.invalidOpcode (s.mem.byteAt s.mem.ip.toNat)) := by
  simp only [stepFailure, invalid, if_neg (Nat.not_lt_of_le (Nat.succ_le_of_lt inside))]

theorem stepFailure_of_record_past {sh : Shape} (inside : s.mem.ip.toNat < s.mem.params.memSize)
    (valid : rom (s.mem.byteAt s.mem.ip.toNat) = some sh)
    (past : s.mem.params.memSize < s.mem.ip.toNat + sh.format.width) :
    stepFailure s = some (.outOfBounds (s.mem.ip.toNat + 1) (sh.format.width - 1)) := by
  simp only [stepFailure, valid, if_neg (Nat.not_lt_of_le (Nat.succ_le_of_lt inside)), if_pos past]

/-- Once the instruction is there, what is left to fail is its effect (R168). -/
theorem stepFailure_of_encoding {i : Instr} (fits : s.mem.ip.toNat + i.width ≤ s.mem.params.memSize)
    (there : s.mem.bytes s.mem.ip.toNat i.width = encode i) : stepFailure s = effectFailure s i := by
  obtain ⟨sh, hrom, made, width⟩ := rom_row_tag_width i
  have forward := i.width_pos
  obtain ⟨k, hk⟩ : ∃ k, i.width = k + 1 := ⟨i.width - 1, by omega⟩
  rw [hk] at there
  have tag : s.mem.byteAt s.mem.ip.toNat = i.row.tag := (List.cons.inj there).1
  have record : sh.readRecord (s.mem.bytes (s.mem.ip.toNat + 1) k) = some (i, []) := by
    refine (Shape.readRecord_eq_some_iff (encodedUnder_of_rom hrom)).mpr ⟨made, ?_⟩
    rw [List.append_nil, ← there, ← tag]
    rfl
  rw [← tag] at hrom
  rw [hk] at fits width
  simp only [stepFailure, hrom, width, if_neg (show ¬ s.mem.params.memSize < s.mem.ip.toNat + 1 by omega),
    if_neg (show ¬ s.mem.params.memSize < s.mem.ip.toNat + (k + 1) by omega), Nat.add_sub_cancel, record]

end StepFailure

end Sys2Proof.Machine
end

section
/-! Halt entry (R163) and the order of the failures (R168). -/

namespace Sys2Proof.Machine

open Sys2Proof.Claims

/-- Settles O16: a Ready step commits what its instruction made, or it is halt entry with a truthful failure, of the instruction
(`exec_writesAt_or_fails`) or of the fetch (`fetch_error_truthful`). -/
theorem haltEntryCommitsNothing : Obligations.HaltEntryCommitsNothing := by
  have halts {s : State} {c : Failure} (truthful : c.Truthful s.mem.params) :
      (s.takeFailure c).run = .halted ∧ (s.takeFailure c).mem = s.mem ∧
        (∃ e, (s.takeFailure c).halt = .halted e s.mem.ip ∧ e.Truthful s.mem.params) ∧
        step (s.takeFailure c) = .next (s.takeFailure c) :=
    ⟨rfl, rfl, ⟨c, rfl, truthful⟩, step_halted rfl⟩
  intro s t ready h
  obtain ⟨halted, _⟩ | ⟨_, _, i, _, hexec⟩ | ⟨_, _, c, hfetch, rfl⟩ := step_cases h
  · cases ready.symm.trans halted
  · obtain ⟨m, _, rfl⟩ | ⟨c, truthful, rfl⟩ := exec_writesAt_or_fails hexec
    · exact .inl ⟨rfl, rfl⟩
    · exact .inr (halts truthful)
  · exact .inr (halts (fetch_error_truthful hfetch))

/-- Settles O15: the outcomes of decoding at the IP (O4) are the first three questions of the order, and an instruction answers
the rest (`exec_of_effectFailure`). -/
theorem failurePriority : Obligations.FailurePriority := by
  intro s hs
  obtain ⟨no_tag, no_opcode, no_record⟩ := fetchFailures s hs
  obtain ⟨past, _⟩ | ⟨inside, outside, _⟩ | ⟨sh, inside, valid, past, _⟩ | ⟨i, rest, fits, there, decoded⟩ :=
    decodingIsTotal s.mem s.mem.ip.toNat s.mem.params.memSize
  · rw [stepFailure_of_past past]
    exact no_tag past
  · have invalid := (rom_eq_none_iff _).mpr outside
    rw [stepFailure_of_rom_none inside invalid]
    exact no_opcode inside invalid
  · rw [stepFailure_of_record_past inside valid past]
    exact no_record sh inside valid past
  · obtain ⟨fails, commits⟩ := exec_of_effectFailure s i
    rw [stepFailure_of_encoding fits there, step_of_decodeAt_instr hs decoded]
    cases first : effectFailure s i with
    | some e => exact fails e first
    | none =>
      obtain ⟨m, hm⟩ := commits first
      exact ⟨_, hm, rfl, rfl⟩

end Sys2Proof.Machine
end

section
/-! SUPPORT. The host's writes (R171), and a memory as its image (R181, R185). -/

namespace Sys2Proof.Machine

open Sys2Proof.Claims

/-! ### HostWrite and HostRead -/

section HostAccess

variable {s : State} {a : Nat}

theorem transact_hostWrite_inside {bs : List Byte} (inside : a + bs.length ≤ s.mem.size) :
    transact (.hostWrite a bs) s = ({ s with mem := s.mem.storeBytes a bs }, .ok) :=
  if_neg (Nat.not_lt_of_le inside)

theorem transact_hostWrite_outside {bs : List Byte} (outside : s.mem.size < a + bs.length) :
    transact (.hostWrite a bs) s = (s, .outOfBounds a bs.length) :=
  if_pos outside

theorem transact_hostRead_inside {n : Nat} (inside : a + n ≤ s.mem.size) :
    transact (.hostRead a n) s = (s, .bytes (s.mem.bytes a n)) :=
  if_neg (Nat.not_lt_of_le inside)

theorem transact_hostRead_outside {n : Nat} (outside : s.mem.size < a + n) :
    transact (.hostRead a n) s = (s, .outOfBounds a n) :=
  if_pos outside

end HostAccess

theorem Memory.byteAt_storeBytes_outside (m : Memory) {a x : Nat} {bs : List Byte} (hx : x < a ∨ a + bs.length ≤ x) :
    (m.storeBytes a bs).byteAt x = m.byteAt x := by
  rw [Memory.byteAt_storeBytes, if_neg (by omega)]

/-- The two bytes of a word stored in the slot are a write of the IP (R24). -/
theorem Memory.storeBytes_slot (m : Memory) (w : Word) : m.storeBytes 0 [loByte w, hiByte w] = m.setIp w := by
  rw [← ofNat_toNat_eq_loByte, ← ofNat_toNat_div_eq_hiByte]
  rfl

/-- Memory after the host's two writes of a load (R184): the instruction at `place`, and `place` in the slot. -/
def Memory.loaded (m : Memory) (place : Word) (i : Instr) : Memory :=
  (m.storeBytes place.toNat (encode i)).setIp place

@[simp] theorem Memory.loaded_params (m : Memory) (place : Word) (i : Instr) : (m.loaded place i).params = m.params :=
  (Memory.setIp_params _ _).trans (Memory.storeBytes_params _ _ _)

@[simp] theorem Memory.loaded_ip (m : Memory) (place : Word) (i : Instr) : (m.loaded place i).ip = place :=
  Memory.setIp_ip _ place

/-- An instruction behind the slot is not touched by the write of the slot. -/
theorem Memory.bytes_loaded (m : Memory) {place : Word} (behind : 2 ≤ place.toNat) (i : Instr) :
    (m.loaded place i).bytes place.toNat i.width = encode i :=
  calc (m.loaded place i).bytes place.toNat i.width
    _ = (m.storeBytes place.toNat (encode i)).bytes place.toNat i.width :=
      Memory.bytes_congr _ _ fun _ from_place _ => Memory.byteAt_setIp_outside _ _ (behind.trans from_place)
    _ = encode i := by rw [← encode_length, Memory.bytes_storeBytes]

theorem step_of_loaded {s : State} (hs : Runnable s) {i : Instr} {place : Word} (behind : 2 ≤ place.toNat)
    (fits : place.toNat + i.width ≤ s.mem.params.memSize) :
    step { s with mem := s.mem.loaded place i } = exec i { s with mem := s.mem.loaded place i } := by
  obtain ⟨ready, legal⟩ := hs
  obtain ⟨_, runs_encoding_at_ip⟩ := stepRunsDecodedInstruction
  refine runs_encoding_at_ip _ i ⟨ready, ?_⟩ ?_ ?_
  · rwa [Memory.loaded_params]
  · rwa [Memory.loaded_ip, Memory.loaded_params]
  · rw [Memory.loaded_ip, Memory.bytes_loaded _ behind]

/-! ### Images -/

/-- Past memory there is nothing but the blank byte (R21, R22). -/
theorem Memory.byteAt_past {m : Memory} (hm : m.wf) {a : Nat} (past : m.size ≤ a) : m.byteAt a = 0 :=
  cellAt_of_not_listed fun c hc => ((hm.2 c hc).2.trans_le past).ne

theorem Memory.image_length (m : Memory) : m.image.length = m.params.memSize :=
  Memory.bytes_length m _ 0

/-- A canonical memory is the one its image makes (R185). -/
theorem Memory.ofImage_image {m : Memory} (hm : m.wf) : Memory.ofImage m.params m.image = m := by
  refine Memory.eq_of_byteAt_eq (Memory.wf_ofImage m.image_length) hm rfl fun a => ?_
  rw [Memory.byteAt_ofImage]
  by_cases inside : a < m.image.length
  · rw [List.getD_eq_getElem _ _ inside]
    exact (Memory.getElem_bytes m _ 0 a inside).trans (by rw [Nat.zero_add])
  · rw [List.getD_eq_default _ _ (by omega), Memory.byteAt_past hm]
    rw [Memory.image_length] at inside
    exact Nat.le_of_not_lt inside

theorem Memory.ofImage_zeroImage (p : Config.Params) : Memory.ofImage p (zeroImage p) = (State.construct p).mem := by
  have fits : ImageFits p (zeroImage p) := List.length_replicate
  refine Memory.eq_of_byteAt_eq (Memory.wf_ofImage fits) (State.construct_wf p) rfl fun a => ?_
  rw [Memory.byteAt_ofImage, zeroImage, List.getD_eq_getElem?_getD, List.getElem?_getD_replicate_default_eq]
  rfl

/-- One byte of an installed image (R181). -/
theorem Memory.bytes_one_ofImage (p : Config.Params) {image : List Byte} {a : Nat} (inside : a < image.length) :
    (Memory.ofImage p image).bytes a 1 = (image.drop a).take 1 := by
  rw [List.take_one_drop_eq_of_lt_length inside, List.get_eq_getElem, ← List.getD_eq_getElem image 0 inside,
    ← Memory.byteAt_ofImage p]
  rfl

theorem State.resetWith_congr {s s' : State} (same : s'.mem.params = s.mem.params) (image : List Byte) :
    s'.resetWith image = s.resetWith image := by
  rw [State.resetWith, State.resetWith, same]

/-- A Ready machine is the reset with its own image (R185). -/
theorem State.resetWith_image {s : State} (hs : s.Inv) (ready : s.run = .ready) : s.resetWith s.mem.image = s := by
  have no_record : s.halt = .none := hs.runHalt.mp ready
  rw [State.resetWith, Memory.ofImage_image hs.memory, State.committed, ← ready, ← no_record]

/-- No transaction but a reset makes a Halted machine Ready (R169, R181). -/
theorem reset_of_leaves_halted {s : State} {tr : Transaction} (halted : s.run = .halted)
    (ready : (transact tr s).1.run = .ready) : ∃ image, tr = .reset image := by
  obtain same | ⟨image, reset, _⟩ | ⟨a, bs, _, _, written⟩ | ⟨_, stepped⟩ := transact_cases tr s
  · rw [same, halted] at ready
    cases ready
  · exact ⟨image, reset⟩
  · rw [written] at ready
    cases halted.symm.trans ready
  · cases halted.symm.trans (ready_of_step_ready stepped ready)

/-! ### The cause codes -/

theorem HaltRecord.code_eq_zero_iff (r : HaltRecord) : r.code = 0 ↔ r = .none := by
  cases r with
  | none => exact ⟨fun _ => rfl, fun _ => rfl⟩
  | halted cause faultIp => cases cause <;> simp [HaltRecord.code]

end Sys2Proof.Machine
end

section
/-! Reset, snapshots and the host's accesses (R162, R170, R171, R181 to R185). -/

namespace Sys2Proof.Machine

open Sys2Proof.Claims

/-- Settles O46: the image makes the same memory again, and a Ready machine is no more than that (`State.resetWith_image`). -/
theorem snapshotRestores : Obligations.SnapshotRestores := by
  intro s u hs ready same
  have fits : ImageFits u.mem.params s.mem.image := by rw [same]; exact s.mem.image_length
  rw [transact_reset fits, State.resetWith_congr same, State.resetWith_image hs ready]

/-- Settles O47: the reset gives the state before the failing step back (O46), with the step it makes. -/
theorem resetRepeatsFailure : Obligations.ResetRepeatsFailure := by
  intro s t hs ready h _
  obtain ⟨_, params⟩ := stepKeepsInvariant s t hs h
  exact ⟨s, snapshotRestores s t hs ready params, ready, h⟩

/-- Settles O45: the reset is made of the image and the parameters alone. -/
theorem resetInstallsImage : Obligations.ResetInstallsImage := by
  refine ⟨fun s image fits => ?_, fun s => ?_, fun _ _ => reset_of_leaves_halted⟩
  · refine ⟨s.resetWith image, transact_reset fits, rfl, rfl, rfl, fun a => Memory.bytes_one_ofImage _, ?_⟩
    intro s' same
    have fits' : ImageFits s'.mem.params image := by rw [same]; exact fits
    rw [transact_reset fits', State.resetWith_congr same]
  · have fits : ImageFits s.mem.params (zeroImage s.mem.params) := List.length_replicate
    rw [transact_reset fits, State.resetWith, Memory.ofImage_zeroImage]
    rfl

/-- Settles O48: the host's two writes leave the encoding at the IP (`Memory.storeBytes_slot`, `step_of_loaded`). -/
theorem loadedInstructionRuns : Obligations.LoadedInstructionRuns := by
  intro s i place hs behind fits
  have two_le : 2 ≤ s.mem.params.memSize := hs.2.1
  have code_inside : place.toNat + (encode i).length ≤ s.mem.size := by rwa [encode_length]
  have slot_inside : 0 + [loByte place, hiByte place].length ≤ (s.mem.storeBytes place.toNat (encode i)).size := by
    rwa [Memory.size, Memory.storeBytes_params]
  refine ⟨_, _, transact_hostWrite_inside code_inside, transact_hostWrite_inside slot_inside, ?_⟩
  rw [Memory.storeBytes_slot]
  exact ⟨s.mem.loaded_ip place i, step_of_loaded hs behind fits⟩

/-- Settles O49: a byte string stored is the one read back (`Memory.bytes_storeBytes`), and both accesses test the same bounds. -/
theorem hostWriteThenRead : Obligations.HostWriteThenRead := by
  intro s a bs
  refine ⟨fun inside => ⟨_, transact_hostWrite_inside inside, rfl, rfl, ?_, fun x apart => ?_⟩,
    fun outside => ⟨transact_hostWrite_outside outside, transact_hostRead_outside outside⟩⟩
  · have still_inside : a + bs.length ≤ (s.mem.storeBytes a bs).size := by rwa [Memory.size, Memory.storeBytes_params]
    rw [transact_hostRead_inside still_inside, Memory.bytes_storeBytes]
  · exact Memory.byteAt_storeBytes_outside s.mem apart

/-- Settles O59: under the invariant no record means Ready, and the code is 0 for no record alone. -/
theorem statusAndCauseCodes : Obligations.StatusAndCauseCodes :=
  ⟨fun _ => rfl, rfl, fun _ _ _ => rfl, fun _ _ => rfl, fun _ => rfl, fun _ _ => rfl,
    fun s hs => s.halt.code_eq_zero_iff.trans hs.runHalt.symm⟩

end Sys2Proof.Machine
end
